-- ==== Sys2Proof/Word.lean ====
section
/-! DEFINITION. The words of the block: the fixed widths of 00_scope.md R7 and the widths of the ports of 10_state.md R32. -/

namespace Sys2Proof

/-- A data byte, an element of the store, and the width of the cursor (R7). -/
abbrev Byte := BitVec 8

/-- The 9-bit value in which offsets are compared with CAPACITY and incremented (R49, R53). -/
abbrev Offset9 := BitVec 9

/-- A 7-bit bus address: the latched address and SLAVE_ADDR (R7, R6). -/
abbrev BusAddr := BitVec 7

/-- The 11-bit event word of port `ev` (R65). -/
abbrev EventWord := BitVec 11

/-- The 4-bit diagnostic output `diag` (R34, R117). -/
abbrev Diag := BitVec 4

end Sys2Proof
end

