-- ==== Sys2Proof/Syntax.lean ====
section
/-! DEFINITION. The events the block takes, one constructor per row of spec/opcode_table.json. -/

namespace Sys2Proof

/-- A decoded event (30_encoding.md R73). An operand's type is exactly the width the encoding gives it, so that no operand
out of range can be written. -/
inductive Instr where
  /-- NOP: no event in this step (R87). -/
  | nop
  /-- AM_W: address match with write intent, with the matched bus address (R88). -/
  | amW (addr : BusAddr)
  /-- AM_R: address match with read intent, with the matched bus address (R89). -/
  | amR (addr : BusAddr)
  /-- WR: the master writes one byte to the slave (R91). -/
  | wr (byte : Byte)
  /-- RD: the master requests one byte; `ack` is the acknowledgment of the previous byte (R96, R70). -/
  | rd (ack : Bool)
  deriving DecidableEq, Repr

end Sys2Proof
end

