-- ==== Sys2Proof/WellFormed.lean ====
section
/-! DEFINITION. What is well formed: every decoded event is (R72: there are no illegal encodings, and the operand types hold no
value out of range); an event WORD is canonical when its reserved bits are 0, as producers drive them (R72); a script's operand
is in range as 30_encoding.md R76 asks. -/

namespace Sys2Proof

/-- Every event is well formed: its operands' types are its operands' ranges (R72). -/
def Instr.wellFormed : Instr → Bool
  | .nop => true
  | .amW _ => true
  | .amR _ => true
  | .wr _ => true
  | .rd _ => true

/-- The bits of an event word that its KIND uses; the others are reserved (R72): ACK and DATA of NOP, ACK of AM and WR, DATA of
RD. -/
def EventWord.usedBits (e : EventWord) : EventWord :=
  if e.extractLsb' 9 2 = 0b00#2 then 0x600#11
  else if e.extractLsb' 9 2 = 0b11#2 then 0x700#11
  else 0x6FF#11

/-- The word as a producer drives it: every reserved bit is 0 (R72). -/
def EventWord.canonical (e : EventWord) : Bool := e &&& EventWord.usedBits e == e

/-- A script's bus address is a 7-bit value (R76). -/
def inRange7 (n : Nat) : Bool := n < 128

/-- A script's byte is an 8-bit value (R76). -/
def inRange8 (n : Nat) : Bool := n < 256

end Sys2Proof
end

