-- ==== Sys2Proof/Decode.lean ====
section
/-! DEFINITION. Decoding and encoding of the 11-bit event word (30_encoding.md R65 to R75). -/

namespace Sys2Proof

/-! ## The fields of the event word (R65) -/

/-- `ev[10:9]`, which event (R66). -/
def EventWord.kind (e : EventWord) : BitVec 2 := e.extractLsb' 9 2

/-- `ev[8]`, the ACK field of RD (R70). -/
def EventWord.ack (e : EventWord) : Bool := e.getLsbD 8

/-- `ev[7:0]`, the DATA field (R67, R68). -/
def EventWord.data (e : EventWord) : Byte := e.extractLsb' 0 8

/-- `ev[7:1]`, the bus address of an address match (R67). -/
def EventWord.busAddr (e : EventWord) : BusAddr := e.extractLsb' 1 7

/-- `ev[0]`, the direction of an address match, 1 for read intent (R67). -/
def EventWord.readIntent (e : EventWord) : Bool := e.getLsbD 0

/-! ## Decode -/

/-- The decode function of R73, total on all 11-bit words. -/
def decode (e : EventWord) : Instr :=
  if EventWord.kind e = 0b00#2 then .nop
  else if EventWord.kind e = 0b01#2 then
    if EventWord.readIntent e then .amR (EventWord.busAddr e) else .amW (EventWord.busAddr e)
  else if EventWord.kind e = 0b10#2 then .wr (EventWord.data e)
  else .rd (EventWord.ack e)

/-- Why a number is not decoded. -/
inductive DecodeRefusal where
  /-- The number does not fit the 11 bits of an event word ("every event word is 11 bits", R74). Safe: no event is made. -/
  | widerThanAnEventWord
  deriving DecidableEq, Repr

/-- The decoder on any number of bits: an 11-bit word decodes as R73 says, and a wider one is refused by name (R74). -/
def decodeNumber (w : Nat) : Except DecodeRefusal Instr :=
  if w < 2048 then .ok (decode (BitVec.ofNat 11 w)) else .error .widerThanAnEventWord

/-- What the decoder reads from an instruction whose bits are `w`, as spec/opcode_table.json numbers them: bit 0 of `w` is bit 0
of the event word. The table gives its rows 11 bits, which are two whole bytes; bits 15 to 11 belong to no event word. -/
def decodeTableWord (nbits w : Nat) : Option Instr :=
  match decodeNumber (w % 2 ^ nbits) with
  | .ok i => some i
  | .error _ => none

/-! ## Encode -/

/-- The word of an event with KIND, ACK and DATA side by side (R65). -/
def EventWord.ofFields (kind : BitVec 2) (ack : Bool) (data : Byte) : EventWord :=
  kind ++ (BitVec.ofBool ack ++ data : BitVec 9)

/-- The canonical word of an event: the opcode map of 30_encoding.md section 3 with every reserved bit 0 (R72). -/
def encode : Instr → EventWord
  | .nop => EventWord.ofFields 0b00#2 false 0x00#8
  | .amW a => EventWord.ofFields 0b01#2 false (a ++ 0b0#1 : BitVec 8)
  | .amR a => EventWord.ofFields 0b01#2 false (a ++ 0b1#1 : BitVec 8)
  | .wr b => EventWord.ofFields 0b10#2 false b
  | .rd k => EventWord.ofFields 0b11#2 k 0x00#8

/-! ## The opcode map (30_encoding.md section 3) -/

/-- A row of the opcode map: a word is the row's when its bits under `mask` are `bits`. -/
structure OpcodeRow where
  mnemonic : String
  mask : EventWord
  bits : EventWord
  deriving DecidableEq, Repr

/-- The opcode map as the spec prints it. -/
def opcodeTable : List OpcodeRow :=
  [⟨"NOP", 0x600#11, 0x000#11⟩, ⟨"AM_W", 0x601#11, 0x200#11⟩, ⟨"AM_R", 0x601#11, 0x201#11⟩,
   ⟨"WR", 0x600#11, 0x400#11⟩, ⟨"RD", 0x600#11, 0x600#11⟩]

/-- The word has the row's fixed bits. -/
def OpcodeRow.matches (r : OpcodeRow) (e : EventWord) : Bool := e &&& r.mask == r.bits

/-- The event's mnemonic in the opcode map. -/
def Instr.mnemonic : Instr → String
  | .nop => "NOP"
  | .amW _ => "AM_W"
  | .amR _ => "AM_R"
  | .wr _ => "WR"
  | .rd _ => "RD"

end Sys2Proof
end

