-- ==== Sys2Proof/Config.lean ====
section
/-! DEFINITION. The configuration of the block (00_scope.md R6, 10_state.md R31) and the one configured device, whose four
parameters the spec leaves OPEN (92_eei_decisions.md D13, D19, D20, D28): constants without a body, so that nothing can be
proved that holds of one choice only. -/

namespace Sys2Proof

/-- The four build-time constants of R6 with R6's legal values: a value of this type IS a legal configuration, so that an
illegal one "has no model". -/
structure Config where
  /-- `CAPACITY`: the logical size of the EEPROM. -/
  capacity : Nat
  /-- `STORAGE_LEN`: how many bytes the backing store has. -/
  storageLen : Nat
  /-- `INIT_IMAGE`: the bytes the store holds after reset. -/
  initImage : List Byte
  /-- `SLAVE_ADDR`: exported on `cfg_slave_addr`, compared with nothing (R36). -/
  slaveAddr : BusAddr
  capacity_pos : 1 ≤ capacity
  capacity_le : capacity ≤ 256
  capacity_le_storageLen : capacity ≤ storageLen
  initImage_length : initImage.length = storageLen
  deriving DecidableEq, Repr

/-- Why a configuration is refused when it is built (R6; 93_implementation_defined.md U19). Safe: no block is made. -/
inductive ConfigRefusal where
  /-- CAPACITY is not between 1 and 256. -/
  | capacityOutOfRange
  /-- STORAGE_LEN is below CAPACITY. -/
  | storageBelowCapacity
  /-- INIT_IMAGE does not have STORAGE_LEN bytes. -/
  | imageLength
  deriving DecidableEq, Repr

/-- Construct the block's configuration, or refuse: "A configuration that violates a legal-value constraint has no model: the
model refuses to construct the block" (R6). -/
def Config.build (capacity storageLen : Nat) (initImage : List Byte) (slaveAddr : BusAddr) :
    Except ConfigRefusal Config :=
  if hc : 1 ≤ capacity ∧ capacity ≤ 256 then
    if hs : capacity ≤ storageLen then
      if hi : initImage.length = storageLen then
        .ok ⟨capacity, storageLen, initImage, slaveAddr, hc.1, hc.2, hs, hi⟩
      else .error .imageLength
    else .error .storageBelowCapacity
  else .error .capacityOutOfRange

/-- CAPACITY - 1 of the configured device. OPEN (D20), bounded as R6 bounds it. -/
opaque Config.openCapacityMinusOne : Fin 256

/-- STORAGE_LEN - CAPACITY of the configured device. OPEN (D13). -/
opaque Config.openSurplus : Nat

/-- The bytes of INIT_IMAGE of the configured device. OPEN (D28). -/
opaque Config.openImageByte : Nat → Byte

/-- SLAVE_ADDR of the configured device. OPEN (D19). -/
opaque Config.openSlaveAddr : BusAddr

/-- The configuration the device was built with. Every legal configuration is this one for some value of the four OPEN
constants; DESIGN CHOICE of the form, notes/assumptions/1.md. -/
def Config.device : Config where
  capacity := Config.openCapacityMinusOne.val + 1
  storageLen := Config.openCapacityMinusOne.val + 1 + Config.openSurplus
  initImage := (List.range (Config.openCapacityMinusOne.val + 1 + Config.openSurplus)).map Config.openImageByte
  slaveAddr := Config.openSlaveAddr
  capacity_pos := Nat.le_add_left 1 _
  capacity_le := Config.openCapacityMinusOne.isLt
  capacity_le_storageLen := Nat.le_add_right _ _
  initImage_length := by rw [List.length_map, List.length_range]

end Sys2Proof
end

