-- ==== Sys2Proof/Machine/State.lean ====
section
/-! DEFINITION. The state of the block (10_state.md R20), its output registers (R33, R34), the configuration it was built with
(R31) and the inputs its environment presents (R32); the state after reset (R39); the reasons a step can stop. -/

namespace Sys2Proof.Machine

/-- `S.phase`, the protocol phase: a closed enumeration of three values, "no fourth value is representable" (R21). -/
inductive Phase where
  /-- No write-intent address match has been seen since reset. -/
  | idle
  /-- The next WR byte is a register address. -/
  | awaitingAddressByte
  /-- The next WR byte is data. -/
  | addressReceived
  deriving DecidableEq, Repr

/-- What the bus layer drives on the input ports at one rising edge of `clk` (R32). -/
structure PortInput where
  /-- `rst`, the synchronous reset, active high (R135). -/
  rst : Bool
  /-- `ev`, the event word (R65). -/
  ev : EventWord
  deriving DecidableEq, Repr

/-- The backing store as the list of the bytes that differ from INIT_IMAGE, by rising index; an index not listed reads as its
INIT_IMAGE byte (R27, R39; notes/assumptions/6.md). -/
abbrev Memory := List Host.Cell

/-- The machine. `phase`, `cursor`, `laddr` and `mem` are the architectural state of R20; `txValid`, `txData` and `diag` are the
output registers of R33 and R34; `cfg` is the configuration, which no step writes (R31); `inputs` is the model's own field, what
the input ports carry at the coming edges, nearest first. -/
structure State where
  /-- The configuration the block was built with: not architectural state, read-only (R6, R31; notes/assumptions/1.md). -/
  cfg : Config
  /-- `S.phase` (R21). -/
  phase : Phase
  /-- `S.cursor`, the current read or write offset (R23). -/
  cursor : Byte
  /-- `S.laddr`, the address of the latest address match (R26). -/
  laddr : BusAddr
  /-- `S.mem`, the backing store (R27). -/
  mem : Memory
  /-- `tx_valid`: the latest step handed over a byte (R33). -/
  txValid : Bool
  /-- `tx_data`: the byte to transmit (R33). -/
  txData : Byte
  /-- `diag`: the anomalies of the latest step (R34). -/
  diag : Diag
  /-- The coming inputs of the ports; not the spec's (notes/assumptions/2.md). -/
  inputs : List PortInput
  deriving DecidableEq, Repr

/-- The state right after reset of a block built with `cfg`, before an environment that will present `inputs` (R39, R135). -/
def State.resetOf (cfg : Config) (inputs : List PortInput) : State where
  cfg := cfg
  phase := .idle
  cursor := 0x00#8
  laddr := 0b0000000#7
  mem := []
  txValid := false
  txData := 0x00#8
  diag := 0b0000#4
  inputs := inputs

/-- The device right after reset, with no input presented yet (R39, R138). -/
def State.reset : State := State.resetOf Config.device []

/-- The machine faults: it has no constructor, because "a model of the block has no fault outcome and no stuck outcome for any
event" (60_exceptions.md R115). -/
inductive Fault where
  deriving DecidableEq, Repr

/-- Refusals of the model. -/
inductive Refusal where
  /-- Raised by `exec` for an instruction that has no meaning yet; safe. No arm raises it: all five events have their meaning. -/
  | notModelled (mnemonic : String)
  deriving DecidableEq, Repr

end Sys2Proof.Machine
end

