-- ==== Sys2Proof/Machine/Ops.lean ====
section
/-! DEFINITION. The named operations over registers, outputs and the store: the wraparound routine (20_memory.md R49), the read
and write primitives (R51, R52), the writes of single fields, the latching of a step's outputs (10_state.md R33, R34) and
reset (70_reset_and_hazards.md R135). The block takes no exception (R115, R127) and returns from none (R128). -/

namespace Sys2Proof.Machine

/-! ## Offsets -/

/-- `zext_9` of a byte (00_scope.md R10). -/
def zext9 (b : Byte) : Offset9 := b.setWidth 9

/-- The wraparound routine, one for the clamp, the pre-access check and the advance: reset to 0 if at or above CAPACITY, not
modulo (R48, R49; 90_conflicts.md C2). -/
def wrap (cfg : Config) (c : Offset9) : Byte :=
  if cfg.capacity ≤ c.toNat then 0x00#8 else c.extractLsb' 0 8

/-- The cursor after an access at index `a`: `wrap(zext_9(a) + 1)`, in 9 bits (R53). -/
def advance (cfg : Config) (a : Byte) : Byte := wrap cfg (zext9 a + 1#9)

/-! ## The store -/

/-- The INIT_IMAGE byte at an index: what the store holds where nothing was written since reset (R39). The default stands for an
index of STORAGE_LEN or more, which does not exist (R45) and which no event names (notes/assumptions/6.md). -/
def initByte (cfg : Config) (a : Nat) : Byte := cfg.initImage.getD a 0x00#8

/-- `MemRead(a, 1)`: the byte at index `a` (R51). -/
def Memory.read (cfg : Config) (m : Memory) (a : Nat) : Byte := (m.lookup a).getD (initByte cfg a)

/-- The listing of byte `v` at index `a`: none where the store reads so without it. -/
def Memory.listing (cfg : Config) (a : Nat) (v : Byte) : Memory := if v = initByte cfg a then [] else [(a, v)]

/-- `MemWrite(a, 1, v)`: index `a` holds `v`, "no other index changes" (R52), in the canonical form. -/
def Memory.write (cfg : Config) (m : Memory) (a : Nat) (v : Byte) : Memory :=
  m.filter (fun c => c.1 < a) ++ Memory.listing cfg a v ++ m.filter (fun c => a < c.1)

/-- The canonical form: indices strictly rising, each an index of the store, and none listed that reads so unlisted. -/
abbrev Memory.wf (cfg : Config) (m : Memory) : Prop :=
  m.Pairwise (fun c d => c.1 < d.1) ∧ ∀ c ∈ m, c.1 < cfg.storageLen ∧ c.2 ≠ initByte cfg c.1

/-- The byte of the store at an index, none where no such index exists (R45): the view in which claims speak of `S.mem[i]`. -/
def State.byteAt (s : State) (i : Nat) : Option Byte :=
  if i < s.cfg.storageLen then some (Memory.read s.cfg s.mem i) else none

/-! ## Writes of single fields (00_scope.md R10: `S.f <- v`) -/

/-- `S.phase <- p`. -/
def State.setPhase (s : State) (p : Phase) : State := { s with phase := p }

/-- `S.cursor <- c`. -/
def State.setCursor (s : State) (c : Byte) : State := { s with cursor := c }

/-- `S.laddr <- a`. -/
def State.setLaddr (s : State) (a : BusAddr) : State := { s with laddr := a }

/-- `S.mem[a] <- v`. -/
def State.store (s : State) (a : Byte) (v : Byte) : State := { s with mem := Memory.write s.cfg s.mem a.toNat v }

/-! ## A step's outputs -/

/-- The output `out` of one step: the byte handed over for transmission, if any, and the anomalies (00_scope.md R10, R11). -/
structure Out where
  tx : Option Byte
  diag : Diag
  deriving DecidableEq, Repr

/-- The defaults of every event: no byte, no anomaly (40_slave_events.md R85). -/
def Out.quiet : Out := ⟨none, 0b0000#4⟩

/-- The output registers at the edge that performs the step: `tx_data` keeps its value where no byte is handed over
(10_state.md R33), and `diag` is overwritten (R34). -/
def State.drive (s : State) (o : Out) : State :=
  { s with txValid := o.tx.isSome, txData := o.tx.getD s.txData, diag := o.diag }

/-- The byte the latest step handed over, as the bus layer reads it from `tx_valid` and `tx_data` (R33,
70_reset_and_hazards.md R149). -/
def State.sent (s : State) : Option Byte := if s.txValid then some s.txData else none

/-! ## The input ports -/

/-- What the ports carry at this edge: the nearest input, or no reset and no event where the environment presents nothing more
(30_encoding.md R71; notes/assumptions/2.md). -/
def State.input (s : State) : PortInput := s.inputs.headD ⟨false, 0x000#11⟩

/-- The inputs of the later edges. -/
def State.popInput (s : State) : State := { s with inputs := s.inputs.tail }

/-- The next edge carries event word `e`, with no reset; the inputs of later edges stay. -/
def State.presentNext (s : State) (e : EventWord) : State := { s with inputs := ⟨false, e⟩ :: s.inputs.tail }

/-- Reset: "every state field and output register takes the reset value" (R135). The configuration is a constant of the block
(R31), and what the environment presents later is not the block's to clear. -/
def takeReset (s : State) : State := State.resetOf s.cfg s.inputs

end Sys2Proof.Machine
end

