-- ==== Sys2Proof/Machine/Operands.lean ====
section
/-! DEFINITION. The one storage addressing mode, cursor-indirect with wraparound and post-increment (40_slave_events.md R105), and
the direct load of the cursor by an address byte (R92). -/

namespace Sys2Proof.Machine

/-- The index of an access: `let a = wrap(zext_9(S.cursor))` (20_memory.md R50). -/
def State.accessIndex (s : State) : Byte := wrap s.cfg (zext9 s.cursor)

/-- The byte a fetch at the cursor reads (R96). -/
def State.fetched (s : State) : Byte := Memory.read s.cfg s.mem s.accessIndex.toNat

/-- The cursor moves past the accessed index (20_memory.md R53). -/
def State.advanceCursor (s : State) : State := s.setCursor (advance s.cfg s.accessIndex)

/-- Store a byte at the cursor, then advance it (R93). -/
def State.storeAtCursor (s : State) (b : Byte) : State :=
  (s.store s.accessIndex b).setCursor (advance s.cfg s.accessIndex)

/-- The cursor takes the address byte, clamped (R92). -/
def State.loadCursor (s : State) (b : Byte) : State := s.setCursor (wrap s.cfg (zext9 b))

end Sys2Proof.Machine
end

