-- ==== Sys2Proof/Machine/Flags.lean ====
section
/-! DEFINITION. The diagnostic bits, the only flags of the block (60_exceptions.md R117 to R124): per step, not sticky, and without
effect on anything else. -/

namespace Sys2Proof.Machine

/-- Bit 0, ADDR_CLAMPED (R118). -/
def diagAddrClamped : Diag := 0x1#4

/-- Bit 1, DATA_WHILE_IDLE (R119). -/
def diagDataWhileIdle : Diag := 0x2#4

/-- Bit 2, READ_NOT_ADDRESSED (R120). -/
def diagReadNotAddressed : Diag := 0x4#4

/-- Bit 3, CURSOR_PREWRAP (R121). -/
def diagCursorPrewrap : Diag := 0x8#4

/-- The code where its cause holds, else no bit. -/
def raiseIf (cause : Bool) (code : Diag) : Diag := if cause then code else 0b0000#4

/-- ADDR_CLAMPED for an address byte: `zext_9(b) ≥ CAPACITY` (40_slave_events.md R92). -/
def addressDiag (cfg : Config) (b : Byte) : Diag :=
  raiseIf (decide (cfg.capacity ≤ (zext9 b).toNat)) diagAddrClamped

/-- CURSOR_PREWRAP for an access: `a ≠ S.cursor` (20_memory.md R50, 40_slave_events.md R93, R96). -/
def accessDiag (s : State) : Diag := raiseIf (decide (s.accessIndex ≠ s.cursor)) diagCursorPrewrap

/-- READ_NOT_ADDRESSED for a read: the phase is not AddressReceived (R96, 60_exceptions.md R120). -/
def readDiag (s : State) : Diag := raiseIf (decide (s.phase ≠ .addressReceived)) diagReadNotAddressed

end Sys2Proof.Machine
end

