-- ==== Sys2Proof/Machine/AddressMatch.lean ====
section
/-! DEFINITION. The address matches (40_slave_events.md section 3). -/

namespace Sys2Proof.Machine

/-- AM_W: latches the address and awaits an address byte, from every phase (R88; 90_conflicts.md C5). -/
def execAmW (a : BusAddr) (s : State) : Host.Outcome State Fault Refusal :=
  .next (((s.setLaddr a).setPhase .awaitingAddressByte).drive Out.quiet)

/-- AM_R: latches the address, and nothing else (R89). -/
def execAmR (a : BusAddr) (s : State) : Host.Outcome State Fault Refusal :=
  .next ((s.setLaddr a).drive Out.quiet)

end Sys2Proof.Machine
end

