-- ==== Sys2Proof/Machine/Idle.lean ====
section
/-! DEFINITION. The no-event step (40_slave_events.md section 2). -/

namespace Sys2Proof.Machine

/-- NOP: only the defaults of R85 apply, so `tx_valid <- 0` and `diag <- 0b0000` (R87). -/
def execNop (s : State) : Host.Outcome State Fault Refusal := .next (s.drive Out.quiet)

end Sys2Proof.Machine
end

