-- ==== Sys2Proof/Machine/MasterRead.lean ====
section
/-! DEFINITION. The byte requested by the master (40_slave_events.md section 5). -/

namespace Sys2Proof.Machine

/-- RD with the gate closed: nothing is fetched, sent or advanced (R97). -/
def rdGated (s : State) : State := s.drive ⟨none, readDiag s⟩

/-- RD with the gate open: the byte at the cursor is sent and the cursor advances (R96). -/
def rdFetch (s : State) : State := s.advanceCursor.drive ⟨some s.fetched, readDiag s ||| accessDiag s⟩

/-- RD: in every phase, and the phase stays (R96, R98). -/
def execRd (k : Bool) (s : State) : Host.Outcome State Fault Refusal :=
  match k with
  | false => .next (rdGated s)
  | true => .next (rdFetch s)

end Sys2Proof.Machine
end

