-- ==== Sys2Proof/Machine/MasterWrite.lean ====
section
/-! DEFINITION. The byte from the master (40_slave_events.md section 4). -/

namespace Sys2Proof.Machine

/-- WR in Idle: the byte is discarded and DATA_WHILE_IDLE raised (R94). -/
def wrIdle (s : State) : State := s.drive ⟨none, diagDataWhileIdle⟩

/-- WR in AwaitingAddressByte: the address byte sets the cursor, clamped (R92). -/
def wrAddress (b : Byte) (s : State) : State :=
  ((s.loadCursor b).setPhase .addressReceived).drive ⟨none, addressDiag s.cfg b⟩

/-- WR in AddressReceived: the byte is stored at the cursor, which advances; the phase stays (R93). -/
def wrData (b : Byte) (s : State) : State := (s.storeAtCursor b).drive ⟨none, accessDiag s⟩

/-- WR: "The meaning of `b` is chosen by the phase alone" (R91). -/
def execWr (b : Byte) (s : State) : Host.Outcome State Fault Refusal :=
  match s.phase with
  | .idle => .next (wrIdle s)
  | .awaitingAddressByte => .next (wrAddress b s)
  | .addressReceived => .next (wrData b s)

end Sys2Proof.Machine
end

