-- ==== Sys2Proof/Machine/Dispatch.lean ====
section
/-! DEFINITION. The meaning of each event, one arm per constructor (40_slave_events.md R85). -/

namespace Sys2Proof.Machine

def exec (i : Instr) (s : State) : Host.Outcome State Fault Refusal :=
  match i with
  | .nop => Sys2Proof.Machine.execNop s
  | .amW a => Sys2Proof.Machine.execAmW a s
  | .amR a => Sys2Proof.Machine.execAmR a s
  | .wr b => Sys2Proof.Machine.execWr b s
  | .rd k => Sys2Proof.Machine.execRd k s

end Sys2Proof.Machine
end

