-- ==== Sys2Proof/Machine/Step.lean ====
section
/-! DEFINITION. One step of the block: one rising edge of `clk` (10_state.md R32, 40_slave_events.md R85,
70_reset_and_hazards.md R135, R136). -/

namespace Sys2Proof.Machine

/-- One clock edge: the nearest input is taken; with `rst = 1` the block is reset and the event word "is not performed and leaves
no trace" (R136), else the decoded event is performed (R85). -/
def step (s : State) : Host.Outcome State Fault Refusal :=
  match s.input.rst with
  | true => .next (takeReset s.popInput)
  | false => exec (decode s.input.ev) s.popInput

/-- The state in which the very next edge presents the table's word `w` on port `ev`. An event word is 11 bits: the bits of `w`
above them, which the port does not have, are not presented. -/
def State.withFetchWord (s : State) (nbits w : Nat) : State :=
  s.presentNext (BitVec.ofNat 11 (w % 2 ^ nbits))

end Sys2Proof.Machine
end

