-- ==== Sys2Proof/Machine/Ports.lean ====
section
/-! DEFINITION. The output ports of the block (10_state.md R32 to R36) and the 2-bit code of the phase (R21). -/

namespace Sys2Proof.Machine

/-- The 2-bit encoding of the phase (R21). -/
def Phase.code : Phase → BitVec 2
  | .idle => 0b00#2
  | .awaitingAddressByte => 0b01#2
  | .addressReceived => 0b10#2

/-- The phase a 2-bit code stands for; the code 0b11 stands for none (R21; 93_implementation_defined.md U14). -/
def Phase.ofCode (c : BitVec 2) : Option Phase :=
  if c = 0b00#2 then some .idle
  else if c = 0b01#2 then some .awaitingAddressByte
  else if c = 0b10#2 then some .addressReceived
  else none

/-- What the bus layer reads on the output ports (R32). -/
structure Ports where
  /-- `tx_valid` (R33). -/
  txValid : Bool
  /-- `tx_data` (R33). -/
  txData : Byte
  /-- `diag` (R34). -/
  diag : Diag
  /-- `cfg_slave_addr`, the constant SLAVE_ADDR (R36). -/
  cfgSlaveAddr : BusAddr
  /-- `st_phase`, the phase's code (R35). -/
  stPhase : BitVec 2
  /-- `st_cursor` (R35). -/
  stCursor : Byte
  /-- `st_laddr` (R35). -/
  stLaddr : BusAddr
  deriving DecidableEq, Repr

/-- The output ports show the output registers, the configured address and the current state, the store excepted (R33 to R36). -/
def State.ports (s : State) : Ports where
  txValid := s.txValid
  txData := s.txData
  diag := s.diag
  cfgSlaveAddr := s.cfg.slaveAddr
  stPhase := s.phase.code
  stCursor := s.cursor
  stLaddr := s.laddr

end Sys2Proof.Machine
end

