-- ==== Sys2Proof/Machine/Script.lean ====
section
/-! DEFINITION. Event scripts: the textual form of an event sequence (30_encoding.md R76, R77), how a script is run and what its
end state is (R78, R79), and the pseudo-events that stand for a master's transactions (R80 to R84). -/

namespace Sys2Proof.Machine

/-- One line of a script, its operands as the numbers written. -/
inductive ScriptLine where
  /-- `NOP`. -/
  | nop
  /-- `AM_W` or `AM_W a7`. -/
  | amW (a7 : Option Nat)
  /-- `AM_R` or `AM_R a7`. -/
  | amR (a7 : Option Nat)
  /-- `WR b`. -/
  | wr (b : Nat)
  /-- `RD`. -/
  | rd
  /-- `RD NACK`. -/
  | rdNack
  /-- `SETADDR r` (R80). -/
  | setaddr (r : Nat)
  /-- `WRITE r, b0, b1, ...` (R81). -/
  | write (r : Nat) (bytes : List Nat)
  /-- `READ r, n` (R82). -/
  | read (r n : Nat)
  /-- `READCUR n` (R83). -/
  | readcur (n : Nat)
  /-- `REGW r, b` (R84). -/
  | regw (r b : Nat)
  /-- `REGR r` (R84). -/
  | regr (r : Nat)
  deriving DecidableEq, Repr

/-- Why a script has no encoding; safe, since no event is made. -/
inductive ScriptRefusal where
  /-- An operand is out of its range: "an assembly error" (R76). -/
  | operandOutOfRange
  /-- A transaction of no bytes, where R81 to R83 ask for n ≥ 1 (DEDUCED, notes/assumptions/18.md). -/
  | emptyTransaction
  /-- The line's first word is no mnemonic of R76 or R80 to R84. -/
  | unknownMnemonic
  /-- The mnemonic does not take these operands. -/
  | wrongOperands
  /-- A label is not a name followed by a colon (R77). -/
  | badLabel
  deriving DecidableEq, Repr

/-! ## Words of a line (R76, R80 to R84) -/

/-- The word of an address match with direction bit `dir`: `0x200 + 2 × a7` or `0x201 + 2 × a7`, with SLAVE_ADDR where the line
names no address (R76). -/
def addressMatchWords (cfg : Config) (dir : Nat) (a7 : Option Nat) : Except ScriptRefusal (List EventWord) :=
  if inRange7 (a7.getD cfg.slaveAddr.toNat) then
    .ok [BitVec.ofNat 11 (0x200 + dir + 2 * a7.getD cfg.slaveAddr.toNat)]
  else .error .operandOutOfRange

/-- The words of `WR b` for each byte: `0x400 + b` (R76). -/
def writeWords (bytes : List Nat) : Except ScriptRefusal (List EventWord) :=
  if bytes.all inRange8 then .ok (bytes.map fun b => BitVec.ofNat 11 (0x400 + b)) else .error .operandOutOfRange

/-- `AM_W; WR r; WR b0; ...`, the write transaction (R80, R81). -/
def writeTransaction (cfg : Config) (bytes : List Nat) : Except ScriptRefusal (List EventWord) :=
  match addressMatchWords cfg 0 none, writeWords bytes with
  | .ok m, .ok w => .ok (m ++ w)
  | .error e, _ => .error e
  | _, .error e => .error e

/-- `AM_R; RD; ...`, the read transaction of n ≥ 1 bytes (R83). -/
def readTransaction (cfg : Config) (n : Nat) : Except ScriptRefusal (List EventWord) :=
  if n = 0 then .error .emptyTransaction
  else
    match addressMatchWords cfg 1 none with
    | .ok m => .ok (m ++ List.replicate n 0x700#11)
    | .error e => .error e

/-- Both parts one after the other, refused where either is. -/
def joinWords (a b : Except ScriptRefusal (List EventWord)) : Except ScriptRefusal (List EventWord) :=
  match a, b with
  | .ok x, .ok y => .ok (x ++ y)
  | .error e, _ => .error e
  | _, .error e => .error e

/-- The event words a line stands for. -/
def ScriptLine.words (cfg : Config) : ScriptLine → Except ScriptRefusal (List EventWord)
  | .nop => .ok [0x000#11]
  | .amW a7 => addressMatchWords cfg 0 a7
  | .amR a7 => addressMatchWords cfg 1 a7
  | .wr b => writeWords [b]
  | .rd => .ok [0x700#11]
  | .rdNack => .ok [0x600#11]
  | .setaddr r => writeTransaction cfg [r]
  | .write _ [] => .error .emptyTransaction
  | .write r (b :: bs) => writeTransaction cfg (r :: b :: bs)
  | .read r n => joinWords (writeTransaction cfg [r]) (readTransaction cfg n)
  | .readcur n => readTransaction cfg n
  | .regw r b => writeTransaction cfg [r, b]
  | .regr r => joinWords (writeTransaction cfg [r]) (readTransaction cfg 1)

/-- The event words of a script, in text order. -/
def assemble (cfg : Config) : List ScriptLine → Except ScriptRefusal (List EventWord)
  | [] => .ok []
  | l :: ls => joinWords (l.words cfg) (assemble cfg ls)

/-! ## The text of a line (R76, R77) -/

/-- A blank of the script's text. -/
def isBlank (c : Char) : Bool := c == ' ' || c == '\t' || c == '\r'

/-- The text without its leading and trailing blanks. -/
def trim (t : List Char) : List Char := ((t.dropWhile isBlank).reverse.dropWhile isBlank).reverse

/-- The pieces of a text between the separators. -/
def splitAtChar (sep : Char) (t : List Char) : List (List Char) :=
  t.foldr
    (fun c acc =>
      if c == sep then [] :: acc
      else
        match acc with
        | [] => [[c]]
        | p :: ps => (c :: p) :: ps)
    [[]]

/-- The value of a digit in a base of at most sixteen. -/
def digitValue (base : Nat) (c : Char) : Option Nat :=
  let v :=
    if '0'.toNat ≤ c.toNat ∧ c.toNat ≤ '9'.toNat then some (c.toNat - '0'.toNat)
    else if 'a'.toNat ≤ c.toNat ∧ c.toNat ≤ 'f'.toNat then some (c.toNat - 'a'.toNat + 10)
    else none
  v.filter (· < base)

/-- The number the digits write, most significant first. -/
def numberFrom (base : Nat) (acc : Nat) : List Char → Option Nat
  | [] => some acc
  | c :: cs =>
    match digitValue base c with
    | some d => numberFrom base (acc * base + d) cs
    | none => none

/-- A literal: `0x`-prefixed hexadecimal or decimal (R77). -/
def parseLiteral (t : List Char) : Option Nat :=
  match t with
  | [] => none
  | '0' :: 'x' :: c :: cs => numberFrom 16 0 (c :: cs)
  | c :: cs => numberFrom 10 0 (c :: cs)

/-- Every literal of an operand list, or none where one is no literal. -/
def parseLiterals : List (List Char) → Option (List Nat)
  | [] => some []
  | t :: ts =>
    match parseLiteral t, parseLiterals ts with
    | some n, some ns => some (n :: ns)
    | _, _ => none

/-- The operands after a mnemonic: none, or literals between commas. -/
def parseOperands (t : List Char) : Option (List Nat) :=
  if t = [] then some [] else parseLiterals ((splitAtChar ',' t).map trim)

/-- The line of a mnemonic and its operands, both in lower case (R76, R80 to R84). -/
def parseEvent (name operands : List Char) : Except ScriptRefusal ScriptLine :=
  if name = "rd".toList then
    if operands = [] then .ok .rd
    else if operands = "nack".toList then .ok .rdNack
    else .error .wrongOperands
  else
    match parseOperands operands with
    | none => .error .wrongOperands
    | some ns =>
      if name = "nop".toList then
        match ns with
        | [] => .ok .nop
        | _ => .error .wrongOperands
      else if name = "am_w".toList then
        match ns with
        | [] => .ok (.amW none)
        | [a] => .ok (.amW (some a))
        | _ => .error .wrongOperands
      else if name = "am_r".toList then
        match ns with
        | [] => .ok (.amR none)
        | [a] => .ok (.amR (some a))
        | _ => .error .wrongOperands
      else if name = "wr".toList then
        match ns with
        | [b] => .ok (.wr b)
        | _ => .error .wrongOperands
      else if name = "setaddr".toList then
        match ns with
        | [r] => .ok (.setaddr r)
        | _ => .error .wrongOperands
      else if name = "write".toList then
        match ns with
        | r :: bs => .ok (.write r bs)
        | _ => .error .wrongOperands
      else if name = "read".toList then
        match ns with
        | [r, n] => .ok (.read r n)
        | _ => .error .wrongOperands
      else if name = "readcur".toList then
        match ns with
        | [n] => .ok (.readcur n)
        | _ => .error .wrongOperands
      else if name = "regw".toList then
        match ns with
        | [r, b] => .ok (.regw r b)
        | _ => .error .wrongOperands
      else if name = "regr".toList then
        match ns with
        | [r] => .ok (.regr r)
        | _ => .error .wrongOperands
      else .error .unknownMnemonic

/-- A line without its label: "a line may carry a label `name:`", which has no effect (R77; notes/assumptions/15.md). -/
def dropLabel (t : List Char) : Except ScriptRefusal (List Char) :=
  match splitAtChar ':' t with
  | [] => .ok []
  | [rest] => .ok rest
  | [name, rest] => if trim name = [] ∨ (trim name).any isBlank then .error .badLabel else .ok rest
  | _ => .error .badLabel

/-- One line of text: the comment from `;` to the end of the line dropped, letters of either case, a line with no event in it
standing for none (R76, R77). -/
def parseLine (t : List Char) : Except ScriptRefusal (List ScriptLine) :=
  match dropLabel ((t.takeWhile (· != ';')).map Char.toLower) with
  | .error e => .error e
  | .ok body =>
    if trim body = [] then .ok []
    else
      match parseEvent ((trim body).takeWhile (fun c => !isBlank c)) (trim ((trim body).dropWhile fun c => !isBlank c)) with
      | .ok l => .ok [l]
      | .error e => .error e

/-- The lines of a script, in text order. -/
def parseLines : List (List Char) → Except ScriptRefusal (List ScriptLine)
  | [] => .ok []
  | t :: ts =>
    match parseLine t, parseLines ts with
    | .ok l, .ok ls => .ok (l ++ ls)
    | .error e, _ => .error e
    | _, .error e => .error e

/-- The event words of a script's text. -/
def assembleText (cfg : Config) (text : String) : Except ScriptRefusal (List EventWord) :=
  match parseLines (splitAtChar '\n' text.toList) with
  | .ok ls => assemble cfg ls
  | .error e => .error e

/-! ## Running a sequence of events (R78, R79) -/

/-- The end of a run: "the state after its last event's step, together with the sequence of `out.tx` values of its steps (the
bytes transmitted, in order) and the `diag` value of each step" (R79). -/
structure RunResult where
  final : State
  sent : List Byte
  diags : List Diag
  deriving DecidableEq, Repr

/-- Deliver event words in order, one step each (R78): each is put on the ports before whatever the environment presents later,
so that after the last word the inputs are what they were. -/
def runEvents : List EventWord → State → Host.Outcome RunResult Fault Refusal
  | [], s => .next ⟨s, [], []⟩
  | e :: es, s =>
    match step { s with inputs := ⟨false, e⟩ :: s.inputs } with
    | .fault r => .fault r
    | .refused r => .refused r
    | .next t =>
      match runEvents es t with
      | .fault r => .fault r
      | .refused r => .refused r
      | .next r => .next ⟨r.final, t.sent.toList ++ r.sent, t.diag :: r.diags⟩

/-- A script's run, "by default" from the reset state of the block built with `cfg` (R78). -/
def runScript (cfg : Config) (text : String) : Except ScriptRefusal (Host.Outcome RunResult Fault Refusal) :=
  match assembleText cfg text with
  | .ok es => .ok (runEvents es (State.resetOf cfg []))
  | .error e => .error e

end Sys2Proof.Machine
end

