-- ==== Sys2Proof/Safety.lean ====
section
/-! DEFINITION. What counts as a safe run, in the terms the claims use: the invariant of the block (10_state.md R24, 20_memory.md
R46), the states reachable from reset (70_reset_and_hazards.md R139), and the vocabulary of runs of events. -/

namespace Sys2Proof.Safety

open Sys2Proof.Machine

/-- The invariant of every reachable state: the cursor is in range (R24), the store is in its canonical form (the model's own, DESIGN
CHOICE, notes/assumptions/6.md), and every index at or above CAPACITY holds its INIT_IMAGE byte (R46). -/
structure Inv (s : State) : Prop where
  cursor_lt : s.cursor.toNat < s.cfg.capacity
  mem_wf : Memory.wf s.cfg s.mem
  surplus : ∀ i, s.cfg.capacity ≤ i → s.byteAt i = s.cfg.initImage[i]?

/-- The states reachable from reset, whatever the configuration and whatever the bus layer presents (R139, R151). -/
inductive Reachable : State → Prop where
  | reset (cfg : Config) (inputs : List PortInput) : Reachable (State.resetOf cfg inputs)
  | step {s t : State} : Reachable s → step s = .next t → Reachable t

/-- The index an access at cursor value `c` names, in plain arithmetic (20_memory.md R49, R50). -/
def indexOf (cfg : Config) (c : Nat) : Nat := if cfg.capacity ≤ c then 0 else c

/-- The events of the cursor law that leave the cursor alone: NOP, AM_R and RD with k = 0 (40_slave_events.md R102). -/
def leavesCursor : Instr → Bool
  | .nop => true
  | .amW _ => false
  | .amR _ => true
  | .wr _ => false
  | .rd k => !k

/-- The byte a WR event carries. -/
def writtenByte : Instr → Option Byte
  | .nop => none
  | .amW _ => none
  | .amR _ => none
  | .wr b => some b
  | .rd _ => none

/-- The event is NOP. -/
def isNop (e : EventWord) : Bool := decide (decode e = .nop)

/-- The event is an RD with ack = 1. -/
def isOpenRead (e : EventWord) : Bool := decide (decode e = .rd true)

/-- What an event stores and where: a WR in AddressReceived its byte at the index the cursor names, any other event nothing (R93). -/
def storeOf (i : Instr) (s : State) : List (Nat × Byte) :=
  match i, s.phase with
  | .wr b, .addressReceived => [(indexOf s.cfg s.cursor.toNat, b)]
  | _, _ => []

/-- The data bytes a run of events stores and where, in order. -/
def storesOf : List EventWord → State → List (Nat × Byte)
  | [], _ => []
  | e :: es, s =>
    match step { s with inputs := ⟨false, e⟩ :: s.inputs } with
    | .fault _ => []
    | .refused _ => []
    | .next t => storeOf (decode e) s ++ storesOf es t

end Sys2Proof.Safety
end

