-- ==== Sys2Proof/Certificates/Slice0/Obligations.lean ====
section
/-! DEFINITION. The statements for the provers. Each docstring names the rule of spec/ it formalises; a clause that is the
model's own choice says so. -/

open Sys2Proof Sys2Proof.Machine Sys2Proof.Safety

/-! ## Reset and the step -/

/-- R39: the value of every piece of state and every output register after reset, for every configuration; the device's own
reset state is one of these. The store is compared with INIT_IMAGE at every index, and has no index beyond it. -/
def Obligations.ResetLeavesTheResetValues : Prop :=
  (∀ (cfg : Config) (inputs : List PortInput),
    (State.resetOf cfg inputs).phase = .idle ∧
    (State.resetOf cfg inputs).cursor = 0x00#8 ∧
    (State.resetOf cfg inputs).laddr = 0x00#7 ∧
    (∀ i, (State.resetOf cfg inputs).byteAt i = cfg.initImage[i]?) ∧
    (State.resetOf cfg inputs).txValid = false ∧
    (State.resetOf cfg inputs).txData = 0x00#8 ∧
    (State.resetOf cfg inputs).diag = 0b0000#4 ∧
    (State.resetOf cfg inputs).ports.cfgSlaveAddr = cfg.slaveAddr) ∧
  State.reset = State.resetOf Config.device []

/-- R135, R136: at an edge with `rst = 1` every field and output takes its reset value from any state, and the event word
presented there is not performed and leaves no trace: the same state is left whatever the word. -/
def Obligations.ResetWinsAndClearsEverything : Prop :=
  ∀ (s : State) (rest : List PortInput), ∃ t : State,
    (∀ e : EventWord, step { s with inputs := ⟨true, e⟩ :: rest } = .next t) ∧
    t.phase = .idle ∧ t.cursor = 0x00#8 ∧ t.laddr = 0x00#7 ∧
    (∀ i, t.byteAt i = s.cfg.initImage[i]?) ∧
    t.txValid = false ∧ t.txData = 0x00#8 ∧ t.diag = 0b0000#4 ∧ t.cfg = s.cfg

/-- A reset takes only the input of its own edge, and the inputs of later edges stay: the MODEL's choice
(notes/assumptions/3.md). -/
def Obligations.ResetKeepsTheLaterInputs : Prop :=
  ∀ (s : State) (e : EventWord) (rest : List PortInput), s.inputs = ⟨true, e⟩ :: rest →
    ∃ t : State, step s = .next t ∧ t.inputs = rest ∧ t.phase = .idle

/-- A step runs the decoded event: with an event word presented and no reset, the step is the meaning of the decoded event on the
state without that input (R85; how the inputs are held is the model's, notes/assumptions/2.md). -/
def Obligations.StepPerformsTheDecodedEvent : Prop :=
  ∀ (s : State) (e : EventWord) (rest : List PortInput),
    s.inputs = ⟨false, e⟩ :: rest → step s = exec (decode e) { s with inputs := rest }

/-- Where the environment presents nothing more, the step is that of NOP: the MODEL's choice (notes/assumptions/2.md), in the sense
of R71, where no event is NOP. -/
def Obligations.StepWithNoInputIsNop : Prop :=
  ∀ s : State, s.inputs = [] → step s = exec .nop s

/-- A word placed for the next edge is the event the very next step performs, whatever the environment was about to present at that
edge (the model's, notes/assumptions/4.md). -/
def Obligations.PlacedWordIsPerformedNext : Prop :=
  ∀ (s : State) (w : Nat) (i : Instr),
    decodeTableWord 16 w = some i → step (s.withFetchWord 16 w) = exec i { s with inputs := s.inputs.tail }

/-- R115: no state and no input stops the block; and the model has no fault to stop with. -/
def Obligations.EveryStepAnswersANextState : Prop :=
  (∀ s : State, ∃ t, step s = .next t) ∧ (∀ (i : Instr) (s : State), ∃ t, exec i s = .next t) ∧ ∀ _ : Fault, False

/-! ## The events: what each one does, and that it leaves everything else -/

/-- NOP completes in every state, clears `tx_valid` and `diag`, and changes nothing else (40_slave_events.md section 2). -/
def Obligations.NopClearsOutputsOnly : Prop :=
  ∀ s : State, exec .nop s = .next { s with txValid := false, diag := 0b0000#4 }

/-- R88: AM_W latches the address and awaits an address byte, from every phase and with any address; nothing else but the outputs
changes. -/
def Obligations.WriteIntentMatchAwaitsAnAddressByte : Prop :=
  ∀ (s : State) (a : BusAddr),
    exec (.amW a) s =
      .next { s with laddr := a, phase := .awaitingAddressByte, txValid := false, diag := 0b0000#4 }

/-- R89: AM_R latches the address; the phase, the cursor and the store never change. -/
def Obligations.ReadIntentMatchOnlyLatches : Prop :=
  ∀ (s : State) (a : BusAddr),
    exec (.amR a) s = .next { s with laddr := a, txValid := false, diag := 0b0000#4 }

/-- R94: WR in Idle changes no state and raises DATA_WHILE_IDLE. -/
def Obligations.WriteInIdleIsIgnored : Prop :=
  ∀ (s : State) (b : Byte), s.phase = .idle →
    exec (.wr b) s = .next { s with txValid := false, diag := 0b0010#4 }

/-- R92: WR in AwaitingAddressByte sets the cursor to the byte, or to 0 with ADDR_CLAMPED where the byte is at or above CAPACITY;
the store does not change. -/
def Obligations.AddressByteSetsTheCursorClamped : Prop :=
  ∀ (s : State) (b : Byte), s.phase = .awaitingAddressByte →
    exec (.wr b) s =
      .next { s with
        cursor := if s.cfg.capacity ≤ b.toNat then 0x00#8 else b
        phase := .addressReceived
        txValid := false
        diag := if s.cfg.capacity ≤ b.toNat then 0b0001#4 else 0b0000#4 }

/-- R93: WR in AddressReceived stores the byte at the index of the cursor (0 where the cursor is at or above CAPACITY, with
CURSOR_PREWRAP), changes no other byte, and advances the cursor with rollover at CAPACITY. -/
def Obligations.DataByteIsStoredAtTheCursor : Prop :=
  ∀ (s : State) (b : Byte), s.phase = .addressReceived →
    ∃ m : Memory,
      exec (.wr b) s =
        .next { s with
          mem := m
          cursor := BitVec.ofNat 8
            (if indexOf s.cfg s.cursor.toNat + 1 < s.cfg.capacity then indexOf s.cfg s.cursor.toNat + 1 else 0)
          txValid := false
          diag := if s.cfg.capacity ≤ s.cursor.toNat then 0b1000#4 else 0b0000#4 } ∧
      ∀ i, ({ s with mem := m } : State).byteAt i =
        if i = indexOf s.cfg s.cursor.toNat then some b else s.byteAt i

/-- R96: RD sends the byte at the index of the cursor when `ack` is 1 and advances the cursor, in every phase; with `ack` 0 it
does what R97 says. Nothing else changes. -/
def Obligations.ReadSendsTheByteAtTheCursor : Prop :=
  ∀ s : State,
    (∃ v : Byte,
      s.byteAt (indexOf s.cfg s.cursor.toNat) = some v ∧
      exec (.rd true) s =
        .next { s with
          cursor := BitVec.ofNat 8
            (if indexOf s.cfg s.cursor.toNat + 1 < s.cfg.capacity then indexOf s.cfg s.cursor.toNat + 1 else 0)
          txValid := true
          txData := v
          diag := (if s.phase = .addressReceived then 0b0000#4 else 0b0100#4) |||
            (if s.cfg.capacity ≤ s.cursor.toNat then 0b1000#4 else 0b0000#4) }) ∧
    exec (.rd false) s =
      .next { s with
        txValid := false
        diag := if s.phase = .addressReceived then 0b0000#4 else 0b0100#4 }

/-- R97: RD with the gate closed sends nothing and changes no state, whatever the phase and the cursor (a cursor at or above
CAPACITY raises no CURSOR_PREWRAP, since no access happens); `tx_data` keeps its value. -/
def Obligations.GatedReadChangesNoState : Prop :=
  ∀ s : State, ∃ t : State,
    exec (.rd false) s = .next t ∧
    t = { s with txValid := false, diag := t.diag } ∧ t.sent = none ∧
    (t.diag = 0b0000#4 ↔ s.phase = .addressReceived) ∧
    (t.diag = 0b0100#4 ↔ s.phase ≠ .addressReceived)

/-! ## Rules over all events -/

/-- R22: without a reset the phase changes only by AM_W, to AwaitingAddressByte, and by WR in AwaitingAddressByte, to
AddressReceived; no event returns it to Idle, and AM_W leaves Idle. -/
def Obligations.PhaseChangesOnlyByMatchAndAddressByte : Prop :=
  ∀ s t : State, s.input.rst = false → step s = .next t →
    (t.phase ≠ s.phase →
      (∃ a, decode s.input.ev = .amW a ∧ t.phase = .awaitingAddressByte) ∨
      (∃ b, decode s.input.ev = .wr b ∧ s.phase = .awaitingAddressByte ∧ t.phase = .addressReceived)) ∧
    (t.phase = .idle → s.phase = .idle ∧ ∀ a, decode s.input.ev ≠ .amW a)

/-- R23: without a reset the cursor is written only by WR in AwaitingAddressByte (set, clamped), WR in AddressReceived and RD with
ack = 1 (advanced past the index accessed); every other event leaves it. -/
def Obligations.CursorIsWrittenOnlyByItsThreePaths : Prop :=
  ∀ (i : Instr) (s t : State), exec i s = .next t →
    t.cursor.toNat =
      match i, s.phase with
      | .wr b, .awaitingAddressByte => indexOf s.cfg b.toNat
      | .wr _, .addressReceived => indexOf s.cfg (indexOf s.cfg s.cursor.toNat + 1)
      | .rd true, _ => indexOf s.cfg (indexOf s.cfg s.cursor.toNat + 1)
      | _, _ => s.cursor.toNat

/-- R27: without a reset a byte of the store changes only by a WR in AddressReceived, only at the index of the cursor, and then it
is the byte written. -/
def Obligations.StoreChangesOnlyByDataBytes : Prop :=
  ∀ (i : Instr) (s t : State), exec i s = .next t →
    ∀ j, t.byteAt j ≠ s.byteAt j →
      ∃ b, i = .wr b ∧ s.phase = .addressReceived ∧ j = indexOf s.cfg s.cursor.toNat ∧ t.byteAt j = some b

/-- R33: `tx_valid` is 1 after a step exactly when the step was RD with ack = 1, `tx_data` is then the byte at the cursor's index
and otherwise keeps its value; after reset they are 0 and 0x00. -/
def Obligations.OnlyOpenReadsTransmit : Prop :=
  (∀ (i : Instr) (s t : State), exec i s = .next t →
    (t.txValid = true ↔ i = .rd true) ∧
    (i = .rd true → s.byteAt (indexOf s.cfg s.cursor.toNat) = some t.txData) ∧
    (i ≠ .rd true → t.txData = s.txData)) ∧
  ∀ (cfg : Config) (inputs : List PortInput),
    (State.resetOf cfg inputs).txValid = false ∧ (State.resetOf cfg inputs).txData = 0x00#8

/-- R31, R36: no step, not even a reset, changes the configuration, and `cfg_slave_addr` shows SLAVE_ADDR throughout. -/
def Obligations.ConfigurationNeverChanges : Prop :=
  ∀ s t : State, step s = .next t → t.cfg = s.cfg ∧ t.ports.cfgSlaveAddr = s.cfg.slaveAddr

/-- R35: the status outputs show the current phase, cursor and latched address, and neither they nor the other ports depend on the
store or on what is presented later. -/
def Obligations.StatusPortsShowTheState : Prop :=
  ∀ s : State,
    s.ports.stPhase = s.phase.code ∧ s.ports.stCursor = s.cursor ∧ s.ports.stLaddr = s.laddr ∧
    ∀ (m : Memory) (inputs : List PortInput), ({ s with mem := m, inputs := inputs } : State).ports = s.ports

/-- R21: the codes of the three phases, and the code 0b11 stands for none. -/
def Obligations.PhaseCodes : Prop :=
  Phase.idle.code = 0b00#2 ∧ Phase.awaitingAddressByte.code = 0b01#2 ∧ Phase.addressReceived.code = 0b10#2 ∧
  (∀ p : Phase, Phase.ofCode p.code = some p) ∧
  ∀ c : BitVec 2, Phase.ofCode c = none ↔ c = 0b11#2

/-! ## The diagnostic output -/

/-- R117: each bit of `diag` after a step is 1 exactly when its anomaly occurred in that step, whatever `diag` was before. -/
def Obligations.EachDiagnosticBitExactlyByItsCause : Prop :=
  ∀ (i : Instr) (s t : State), exec i s = .next t →
    (t.diag.getLsbD 0 = true ↔ ∃ b, i = .wr b ∧ s.phase = .awaitingAddressByte ∧ s.cfg.capacity ≤ b.toNat) ∧
    (t.diag.getLsbD 1 = true ↔ ∃ b, i = .wr b ∧ s.phase = .idle) ∧
    (t.diag.getLsbD 2 = true ↔ ∃ k, i = .rd k ∧ s.phase ≠ .addressReceived) ∧
    (t.diag.getLsbD 3 = true ↔
      s.cfg.capacity ≤ s.cursor.toNat ∧ (i = .rd true ∨ ∃ b, i = .wr b ∧ s.phase = .addressReceived))

/-- R124: the only two anomalies one step can report together are READ_NOT_ADDRESSED and CURSOR_PREWRAP, and it reports both exactly
for an RD with k = 1 outside AddressReceived from a cursor at or above CAPACITY. -/
def Obligations.OnlyOnePairOfAnomaliesInOneStep : Prop :=
  ∀ (i : Instr) (s t : State), exec i s = .next t →
    t.diag ∈ [0b0000#4, 0b0001#4, 0b0010#4, 0b0100#4, 0b1000#4, 0b1100#4] ∧
    (t.diag = 0b1100#4 ↔ i = .rd true ∧ s.phase ≠ .addressReceived ∧ s.cfg.capacity ≤ s.cursor.toNat)

/-- R123: the rollover from CAPACITY - 1 to 0 (of a store, and of a fetch in AddressReceived), a gated RD in AddressReceived, every
address match in every phase and NOP raise no bit. -/
def Obligations.NormalEventsRaiseNoAnomaly : Prop :=
  ∀ (i : Instr) (s : State),
    (i = .nop ∨ (∃ a, i = .amW a) ∨ (∃ a, i = .amR a) ∨
      (s.phase = .addressReceived ∧ i = .rd false) ∨
      (s.phase = .addressReceived ∧ s.cursor.toNat + 1 = s.cfg.capacity ∧ (i = .rd true ∨ ∃ b, i = .wr b))) →
    ∃ t : State, exec i s = .next t ∧ t.diag = 0b0000#4 ∧
      (s.phase = .addressReceived → s.cursor.toNat + 1 = s.cfg.capacity → (i = .rd true ∨ ∃ b, i = .wr b) →
        t.cursor = 0x00#8)

/-- R122: the diagnostic bits never change behaviour: over any run of events, two states that differ in `diag` alone send the same
bytes, report the same anomalies and end in states that differ at most in `diag`, and in nothing once a step was made. -/
def Obligations.DiagnosticsNeverChangeBehaviour : Prop :=
  ∀ (es : List EventWord) (s : State) (d : Diag),
    ∃ r r' : RunResult,
      runEvents es s = .next r ∧ runEvents es { s with diag := d } = .next r' ∧
      r'.sent = r.sent ∧ r'.diags = r.diags ∧ { r'.final with diag := r.final.diag } = r.final ∧
      (es ≠ [] → r'.final = r.final)

/-- R90: both address matches latch the presented address, no other event writes it, and no later step reads it: over any run of
events, two states that differ in `laddr` alone send the same bytes, report the same anomalies and end in states that differ at
most in `laddr`. -/
def Obligations.LatchedAddressIsNeverRead : Prop :=
  (∀ (i : Instr) (s t : State), exec i s = .next t →
    t.laddr = match i with
      | .amW a => a
      | .amR a => a
      | _ => s.laddr) ∧
  ∀ (es : List EventWord) (s : State) (a : BusAddr),
    ∃ r r' : RunResult,
      runEvents es s = .next r ∧ runEvents es { s with laddr := a } = .next r' ∧
      r'.sent = r.sent ∧ r'.diags = r.diags ∧ { r'.final with laddr := r.final.laddr } = r.final

/-! ## Invariants -/

/-- The invariant holds after reset, for every configuration and environment, and for the device: the cursor is below CAPACITY and
every index at or above CAPACITY holds its INIT_IMAGE byte, as 10_state.md R24 and 20_memory.md R46 say, and the store is in the
canonical form, which is the MODEL's own (DESIGN CHOICE, notes/assumptions/6.md). -/
def Obligations.ResetMeetsTheInvariant : Prop :=
  (∀ (cfg : Config) (inputs : List PortInput), Inv (State.resetOf cfg inputs)) ∧ Inv State.reset

/-- Every step from every state that meets the invariant keeps it: the cursor below CAPACITY (10_state.md R24), INIT_IMAGE at and
above CAPACITY (20_memory.md R46), and the canonical form of the store, which is the MODEL's own (DESIGN CHOICE,
notes/assumptions/6.md). -/
def Obligations.StepKeepsTheInvariant : Prop :=
  ∀ s t : State, Inv s → step s = .next t → Inv t

/-- R24: in every state reachable from reset the cursor is below CAPACITY. -/
def Obligations.ReachableCursorIsBelowCapacity : Prop :=
  ∀ s : State, Reachable s → s.cursor.toNat < s.cfg.capacity

/-- R46: in every state reachable from reset the indices from CAPACITY to STORAGE_LEN - 1 hold their INIT_IMAGE bytes, no index at or
beyond STORAGE_LEN exists, and no event reads or writes such an index: each access is below CAPACITY. -/
def Obligations.SurplusIndicesKeepTheImage : Prop :=
  (∀ s : State, Reachable s → ∀ i, s.cfg.capacity ≤ i → s.byteAt i = s.cfg.initImage[i]?) ∧
  ∀ s : State, s.accessIndex.toNat < s.cfg.capacity

/-- R121: CURSOR_PREWRAP is raised exactly by a WR data byte or an RD with k = 1 that starts with the cursor at or above CAPACITY, and
in no state reachable from reset is it set. -/
def Obligations.CursorPrewrapNeverFromReset : Prop :=
  (∀ (i : Instr) (s t : State), exec i s = .next t →
    (t.diag.getLsbD 3 = true ↔
      s.cfg.capacity ≤ s.cursor.toNat ∧ (i = .rd true ∨ ∃ b, i = .wr b ∧ s.phase = .addressReceived))) ∧
  ∀ s : State, Reachable s → s.diag.getLsbD 3 = false

/-- The canonical form is canonical: two stores in it that read the same at every index are the same data (the model's own form,
notes/assumptions/6.md). -/
def Obligations.EqualStoresAreEqualData : Prop :=
  ∀ (cfg : Config) (m n : Memory), Memory.wf cfg m → Memory.wf cfg n →
    (∀ i, i < cfg.storageLen → Memory.read cfg m i = Memory.read cfg n i) → m = n

/-! ## Encoding -/

/-- Decode and encode agree: for every event, with every operand at every value. -/
def Obligations.DecodeOfEncodeIsTheEvent : Prop :=
  ∀ i : Instr, i.wellFormed = true ∧ decode (encode i) = i ∧ decodeTableWord 16 (encode i).toNat = some i

/-- R73: the decode function, in plain arithmetic of the word's value. -/
def Obligations.DecodeReadsTheFields : Prop :=
  ∀ e : EventWord,
    (e.toNat / 512 = 0 → decode e = .nop) ∧
    (e.toNat / 512 = 1 → e.toNat % 2 = 1 → decode e = .amR (BitVec.ofNat 7 (e.toNat / 2))) ∧
    (e.toNat / 512 = 1 → e.toNat % 2 = 0 → decode e = .amW (BitVec.ofNat 7 (e.toNat / 2))) ∧
    (e.toNat / 512 = 2 → decode e = .wr (BitVec.ofNat 8 e.toNat)) ∧
    (e.toNat / 512 = 3 → decode e = .rd (decide (e.toNat / 256 % 2 = 1)))

/-- R72: every event word decodes to exactly one event, whose row is the only one of the opcode map with the word's fixed bits; the
reserved bits are ignored: words that differ in them only decode, and step, alike; and no word is refused. -/
def Obligations.ReservedBitsAreIgnored : Prop :=
  (∀ e : EventWord, (opcodeTable.filter fun r => r.matches e).map OpcodeRow.mnemonic = [(decode e).mnemonic]) ∧
  (∀ e : EventWord, encode (decode e) = e &&& EventWord.usedBits e) ∧
  (∀ e f : EventWord, e &&& EventWord.usedBits e = f &&& EventWord.usedBits f →
    decode e = decode f ∧
    ∀ (s : State) (rest : List PortInput),
      step { s with inputs := ⟨false, e⟩ :: rest } = step { s with inputs := ⟨false, f⟩ :: rest }) ∧
  ∀ w : Nat, w < 2048 → decodeTableWord 16 w = some (decode (BitVec.ofNat 11 w))

/-- Words written out from the spec (95_test_vectors.md section 2.1), one or more of each event. -/
def Obligations.DecodedWordsOfTheSpec : Prop :=
  decode 0b00000000000#11 = .nop ∧ decode 0b00111111111#11 = .nop ∧
  decode 0b01010100000#11 = .amW 0x50#7 ∧ decode 0b01011111110#11 = .amW 0x7F#7 ∧
  decode 0b01010100001#11 = .amR 0x50#7 ∧ decode 0b01110100001#11 = .amR 0x50#7 ∧
  decode 0b10000000000#11 = .wr 0x00#8 ∧ decode 0b10111111111#11 = .wr 0xFF#8 ∧
  decode 0b11011111111#11 = .rd false ∧ decode 0b11100000000#11 = .rd true

/-! ## Runs of events -/

/-- R102, the cursor law. From a state in AddressReceived with the cursor c below CAPACITY, a run of WR events with any NOPs, AM_Rs
and gated RDs between them, N of them WR, leaves the cursor at (c + N) mod CAPACITY; byte i was stored at (c + i) mod CAPACITY (so
the last CAPACITY of them stand there, and every other index is as it was). A run of RD events with k = 1 moves the cursor the same
way and sends the bytes at (c + i) mod CAPACITY in order. -/
def Obligations.CursorLaw : Prop :=
  (∀ (es : List EventWord) (s : State), s.phase = .addressReceived → s.cursor.toNat < s.cfg.capacity →
    (∀ e ∈ es, (writtenByte (decode e)).isSome = true ∨ leavesCursor (decode e) = true) →
    ∃ r : RunResult, runEvents es s = .next r ∧
      r.final.phase = .addressReceived ∧
      r.final.cursor.toNat =
        (s.cursor.toNat + (es.filterMap fun e => writtenByte (decode e)).length) % s.cfg.capacity ∧
      storesOf es s =
        ((es.filterMap fun e => writtenByte (decode e)).zipIdx.map fun p =>
          ((s.cursor.toNat + p.2) % s.cfg.capacity, p.1)) ∧
      (∀ (i : Nat) (b : Byte), (es.filterMap fun e => writtenByte (decode e))[i]? = some b →
        (es.filterMap fun e => writtenByte (decode e)).length ≤ i + s.cfg.capacity →
        r.final.byteAt ((s.cursor.toNat + i) % s.cfg.capacity) = some b) ∧
      ∀ j, (∀ i, i < (es.filterMap fun e => writtenByte (decode e)).length →
          j ≠ (s.cursor.toNat + i) % s.cfg.capacity) → r.final.byteAt j = s.byteAt j) ∧
  ∀ (es : List EventWord) (s : State), s.phase = .addressReceived → s.cursor.toNat < s.cfg.capacity →
    (∀ e ∈ es, decode e = .rd true ∨ leavesCursor (decode e) = true) →
    ∃ r : RunResult, runEvents es s = .next r ∧
      r.final.cursor.toNat =
        (s.cursor.toNat + (es.filter fun e => decide (decode e = .rd true)).length) % s.cfg.capacity ∧
      r.sent.map some =
        (List.range (es.filter fun e => decide (decode e = .rd true)).length).map fun i =>
          s.byteAt ((s.cursor.toNat + i) % s.cfg.capacity)

/-- R103: from any state, a byte written at an index below CAPACITY and read back there is the byte sent; and after any run of events
an RD with k = 1 sends the last byte stored at its index, or what stood there before the run where none was stored. -/
def Obligations.ReadReturnsTheLastByteStored : Prop :=
  (∀ (s : State) (a1 a2 a3 : BusAddr) (c v : Byte), c.toNat < s.cfg.capacity →
    ∃ r : RunResult,
      runEvents [encode (.amW a1), encode (.wr c), encode (.wr v), encode (.amW a2), encode (.wr c), encode (.amR a3),
        encode (.rd true)] s = .next r ∧
      r.sent = [v]) ∧
  ∀ (es : List EventWord) (s : State),
    ∃ r : RunResult, runEvents es s = .next r ∧
      (∀ i, r.final.byteAt i = ((storesOf es s).reverse.lookup i).or (s.byteAt i)) ∧
      ∃ t : State, exec (.rd true) r.final = .next t ∧
        some t.txData =
          ((storesOf es s).reverse.lookup (indexOf s.cfg r.final.cursor.toNat)).or
            (s.byteAt (indexOf s.cfg r.final.cursor.toNat))

/-- R87: NOP does nothing, and any number of NOPs between events changes nothing: a run and the same run without its NOPs send the
same bytes, report the same anomalies at the events that are no NOPs, and end in states equal but for `tx_valid` and `diag`, which a
last NOP clears; each NOP itself reports nothing. -/
def Obligations.NopsBetweenEventsChangeNothing : Prop :=
  (∀ s : State, exec .nop s = .next { s with txValid := false, diag := 0b0000#4 }) ∧
  ∀ (es : List EventWord) (s : State),
    ∃ r r' : RunResult,
      runEvents es s = .next r ∧ runEvents (es.filter fun e => !isNop e) s = .next r' ∧
      r.sent = r'.sent ∧
      r.diags.length = es.length ∧
      r'.diags = ((es.zip r.diags).filter fun p => !isNop p.1).map Prod.snd ∧
      (∀ p ∈ es.zip r.diags, isNop p.1 = true → p.2 = 0b0000#4) ∧
      r.final = { r'.final with txValid := r.final.txValid, diag := r.final.diag }

/-- R98: RD is valid in every phase and keeps it; its effect on the cursor, the store, `tx_valid` and `tx_data` does not depend on the
phase, and of `diag` only bit 2 does. -/
def Obligations.ReadDoesNotDependOnThePhase : Prop :=
  ∀ (k : Bool) (s : State) (p : Phase),
    ∃ t u : State,
      exec (.rd k) s = .next t ∧ exec (.rd k) { s with phase := p } = .next u ∧
      t.phase = s.phase ∧
      u = { t with phase := p, diag := u.diag } ∧
      (∀ j, j ≠ 2 → u.diag.getLsbD j = t.diag.getLsbD j) ∧
      (u.diag.getLsbD 2 = true ↔ p ≠ .addressReceived)

/-- 40_slave_events.md R99 (2): in AddressReceived an RD right after a WR data byte at index a sends the byte at the next index, as it
was (the byte written only where CAPACITY is 1 and the next index is a again). -/
def Obligations.ReadAfterDataByteReadsTheNextIndex : Prop :=
  ∀ (s : State) (v : Byte), s.phase = .addressReceived →
    ∃ r : RunResult,
      runEvents [encode (.wr v), encode (.rd true)] s = .next r ∧
      r.sent.map some =
        [if indexOf s.cfg (indexOf s.cfg s.cursor.toNat + 1) = indexOf s.cfg s.cursor.toNat then some v
          else s.byteAt (indexOf s.cfg (indexOf s.cfg s.cursor.toNat + 1))]

/-- R145: an AM_W followed directly by AM_R and RDs sends the bytes from the old cursor on, raises READ_NOT_ADDRESSED at every RD, and
leaves the phase AwaitingAddressByte, so that the next WR is taken as an address byte. -/
def Obligations.ReadWithoutAddressUsesTheOldCursor : Prop :=
  ∀ (s : State) (a b : BusAddr) (n : Nat) (c : Byte), s.cursor.toNat < s.cfg.capacity →
    ∃ r : RunResult,
      runEvents (encode (.amW a) :: encode (.amR b) :: List.replicate n (encode (.rd true))) s = .next r ∧
      r.sent.map some = ((List.range n).map fun i => s.byteAt ((s.cursor.toNat + i) % s.cfg.capacity)) ∧
      r.diags = 0b0000#4 :: 0b0000#4 :: List.replicate n 0b0100#4 ∧
      r.final.phase = .awaitingAddressByte ∧
      ∃ t : State, exec (.wr c) r.final = .next t ∧ t.cursor.toNat = indexOf s.cfg c.toNat ∧ t.mem = r.final.mem

/-- R147: an RD after reset and before any address byte reads from index 0 upward. A run from reset holds no address byte when no WR
of it comes after an AM_W (a WR before the first AM_W is ignored); NOPs, AM_Rs, AM_Ws, gated RDs and ignored WRs may stand anywhere
else. Its N open RDs send the bytes at the indices 0 to N - 1 modulo CAPACITY in order, INIT_IMAGE's since no byte was stored; every
RD raises READ_NOT_ADDRESSED, an ignored WR DATA_WHILE_IDLE, and nothing is refused. -/
def Obligations.ReadBeforeAddressingStartsAtZero : Prop :=
  ∀ (cfg : Config) (inputs : List PortInput) (es : List EventWord),
    es.Pairwise (fun e f => (∃ a, decode e = .amW a) → ∀ b, decode f ≠ .wr b) →
    ∃ r : RunResult,
      runEvents es (State.resetOf cfg inputs) = .next r ∧
      r.sent.map some = ((List.range (es.countP isOpenRead)).map fun i => cfg.initImage[i % cfg.capacity]?) ∧
      r.diags = (es.map fun e =>
        match decode e with
        | .rd _ => 0b0100#4
        | .wr _ => 0b0010#4
        | _ => 0b0000#4) ∧
      r.final.cursor.toNat = es.countP isOpenRead % cfg.capacity ∧
      ∀ j, r.final.byteAt j = cfg.initImage[j]?

/-- R101: every run of events goes on, and after the first AM_W the phase is AwaitingAddressByte or AddressReceived for as long as
events are delivered without a reset. -/
def Obligations.NoRunEndsAndNoneReturnsToIdle : Prop :=
  (∀ (es : List EventWord) (s : State), ∃ r : RunResult, runEvents es s = .next r ∧ r.diags.length = es.length) ∧
  ∀ (es : List EventWord) (s : State) (a : BusAddr) (r : RunResult),
    runEvents (encode (.amW a) :: es) s = .next r → r.final.phase ≠ .idle

/-- R100: the complete transition table, phase by event: the next phase, the latched address, the cursor, the store, the byte sent
and the diagnostic bits of every cell (CURSOR_PREWRAP, which the table leaves to R93 and R96, included). -/
def Obligations.TransitionTable : Prop :=
  ∀ (i : Instr) (s : State), ∃ t : State, exec i s = .next t ∧
    (match s.phase, i with
      | _, .amW a => t.phase = .awaitingAddressByte ∧ t.laddr = a
      | p, .amR a => t.phase = p ∧ t.laddr = a
      | .awaitingAddressByte, .wr _ => t.phase = .addressReceived ∧ t.laddr = s.laddr
      | p, _ => t.phase = p ∧ t.laddr = s.laddr) ∧
    (match s.phase, i with
      | .awaitingAddressByte, .wr b => t.cursor.toNat = indexOf s.cfg b.toNat
      | .addressReceived, .wr _ => t.cursor.toNat = indexOf s.cfg (indexOf s.cfg s.cursor.toNat + 1)
      | _, .rd true => t.cursor.toNat = indexOf s.cfg (indexOf s.cfg s.cursor.toNat + 1)
      | _, _ => t.cursor = s.cursor) ∧
    (match s.phase, i with
      | .addressReceived, .wr b =>
        ∀ j, t.byteAt j = if j = indexOf s.cfg s.cursor.toNat then some b else s.byteAt j
      | _, _ => ∀ j, t.byteAt j = s.byteAt j) ∧
    (match i with
      | .rd true => t.sent = s.byteAt (indexOf s.cfg s.cursor.toNat)
      | _ => t.sent = none) ∧
    t.diag =
      match s.phase, i with
      | .idle, .wr _ => 0b0010#4
      | .awaitingAddressByte, .wr b => if s.cfg.capacity ≤ b.toNat then 0b0001#4 else 0b0000#4
      | .addressReceived, .wr _ => if s.cfg.capacity ≤ s.cursor.toNat then 0b1000#4 else 0b0000#4
      | .addressReceived, .rd true => if s.cfg.capacity ≤ s.cursor.toNat then 0b1000#4 else 0b0000#4
      | _, .rd true => if s.cfg.capacity ≤ s.cursor.toNat then 0b1100#4 else 0b0100#4
      | .addressReceived, .rd false => 0b0000#4
      | _, .rd false => 0b0100#4
      | _, _ => 0b0000#4

/-- 40_slave_events.md R95 (3), (4): with CAPACITY = 256 no address byte clamps and the advance from 0xFF gives 0x00; with CAPACITY = 1
every address byte gives cursor 0, with ADDR_CLAMPED for every nonzero one, and every data byte lands at index 0. -/
def Obligations.WriteCornersOfTheCapacityRange : Prop :=
  ∀ (s : State) (b : Byte),
    (s.cfg.capacity = 256 → s.phase = .awaitingAddressByte →
      ∃ t : State, exec (.wr b) s = .next t ∧ t.cursor = b ∧ t.diag = 0b0000#4) ∧
    (s.cfg.capacity = 256 → s.phase = .addressReceived → s.cursor = 0xFF#8 →
      ∃ t : State, exec (.wr b) s = .next t ∧ t.cursor = 0x00#8 ∧ t.byteAt 255 = some b ∧ t.diag = 0b0000#4) ∧
    (s.cfg.capacity = 1 → s.phase = .awaitingAddressByte →
      ∃ t : State, exec (.wr b) s = .next t ∧ t.cursor = 0x00#8 ∧ (t.diag = 0b0001#4 ↔ b ≠ 0x00#8)) ∧
    (s.cfg.capacity = 1 → s.phase = .addressReceived →
      ∃ t : State, exec (.wr b) s = .next t ∧ t.cursor = 0x00#8 ∧ t.byteAt 0 = some b)

/-! ## Configuration and scripts -/

/-- A run of a script's events is a run of the machine behind the host's interface: presented as the inputs of the coming edges, ahead
of whatever comes later, they take one step each, in order, to the same end (30_encoding.md section 4; how inputs are held is the
model's, notes/assumptions/2.md). -/
def Obligations.ScriptRunIsTheMachinesRun : Prop :=
  ∀ (es : List EventWord) (s : State), ∃ r : RunResult,
    runEvents es s = .next r ∧ r.final.inputs = s.inputs ∧
    Sys2Proof.core.run es.length ({ s with inputs := (es.map fun e => (⟨false, e⟩ : PortInput)) ++ s.inputs } : State) =
      .next r.final

/-- R6: a configuration is built exactly when its values are legal, with those values; an illegal one is refused. -/
def Obligations.IllegalConfigurationIsRefused : Prop :=
  ∀ (capacity storageLen : Nat) (image : List Byte) (addr : BusAddr),
    ((1 ≤ capacity ∧ capacity ≤ 256 ∧ capacity ≤ storageLen ∧ image.length = storageLen) →
      ∃ cfg : Config, Config.build capacity storageLen image addr = .ok cfg ∧
        cfg.capacity = capacity ∧ cfg.storageLen = storageLen ∧ cfg.initImage = image ∧ cfg.slaveAddr = addr) ∧
    (¬(1 ≤ capacity ∧ capacity ≤ 256 ∧ capacity ≤ storageLen ∧ image.length = storageLen) →
      ∃ why : ConfigRefusal, Config.build capacity storageLen image addr = .error why)

/-- R76: the event word of each line, and an operand out of its range has none. -/
def Obligations.ScriptLinesStandForTheirWords : Prop :=
  ∀ (cfg : Config) (n : Nat),
    ScriptLine.nop.words cfg = .ok [0x000#11] ∧
    (ScriptLine.amW none).words cfg = .ok [BitVec.ofNat 11 (0x200 + 2 * cfg.slaveAddr.toNat)] ∧
    (ScriptLine.amR none).words cfg = .ok [BitVec.ofNat 11 (0x201 + 2 * cfg.slaveAddr.toNat)] ∧
    (n ≤ 0x7F → (ScriptLine.amW (some n)).words cfg = .ok [BitVec.ofNat 11 (0x200 + 2 * n)]) ∧
    (n ≤ 0x7F → (ScriptLine.amR (some n)).words cfg = .ok [BitVec.ofNat 11 (0x201 + 2 * n)]) ∧
    (0x7F < n → (ScriptLine.amW (some n)).words cfg = .error .operandOutOfRange) ∧
    (0x7F < n → (ScriptLine.amR (some n)).words cfg = .error .operandOutOfRange) ∧
    (n ≤ 0xFF → (ScriptLine.wr n).words cfg = .ok [BitVec.ofNat 11 (0x400 + n)]) ∧
    (0xFF < n → (ScriptLine.wr n).words cfg = .error .operandOutOfRange) ∧
    ScriptLine.rd.words cfg = .ok [0x700#11] ∧
    ScriptLine.rdNack.words cfg = .ok [0x600#11]

/-- R80 to R84: each pseudo-event has the words of the lines it expands to, for n ≥ 1 bytes and operands in range or not; and the
`RD NACK` that a bus layer may deliver after the last byte of a READ (R82) sends nothing and changes no state. -/
def Obligations.PseudoEventsExpand : Prop :=
  (∀ (cfg : Config) (r b n : Nat) (bs : List Nat),
    (ScriptLine.setaddr r).words cfg = assemble cfg [.amW none, .wr r] ∧
    (ScriptLine.write r (b :: bs)).words cfg = assemble cfg (.amW none :: .wr r :: (b :: bs).map .wr) ∧
    (ScriptLine.read r (n + 1)).words cfg =
      assemble cfg (.amW none :: .wr r :: .amR none :: List.replicate (n + 1) .rd) ∧
    (ScriptLine.readcur (n + 1)).words cfg = assemble cfg (.amR none :: List.replicate (n + 1) .rd) ∧
    (ScriptLine.regw r b).words cfg = (ScriptLine.write r [b]).words cfg ∧
    (ScriptLine.regr r).words cfg = (ScriptLine.read r 1).words cfg) ∧
  ∀ (cfg : Config) (s : State),
    ∃ (e : EventWord) (t : State), ScriptLine.rdNack.words cfg = .ok [e] ∧ exec (decode e) s = .next t ∧
      t = { s with txValid := false, diag := t.diag }

/-- A pseudo-event of no bytes has no words: the MODEL's reading (DEDUCED, notes/assumptions/18.md) of the n ≥ 1 of R81 to R83. WRITE
and READCUR are refused as empty transactions, and READ too where its register is in range (where it is not, by R76). -/
def Obligations.EmptyTransactionsAreRefused : Prop :=
  ∀ (cfg : Config) (r : Nat),
    (ScriptLine.write r []).words cfg = .error .emptyTransaction ∧
    (ScriptLine.readcur 0).words cfg = .error .emptyTransaction ∧
    (ScriptLine.read r 0).words cfg = .error (if r ≤ 0xFF then .emptyTransaction else .operandOutOfRange)

/-- A block write of n bytes, at most CAPACITY of them, at a register below CAPACITY, then a block read of n bytes there, sends the
bytes written in order, from any state of the block (30_encoding.md section 5, 40_slave_events.md section 7). -/
def Obligations.BlockReadReturnsTheBlockWritten : Prop :=
  ∀ (s : State) (r : Nat) (bs : List Nat), r < s.cfg.capacity → bs ≠ [] → bs.length ≤ s.cfg.capacity →
    (∀ b ∈ bs, b ≤ 0xFF) →
    ∃ es : List EventWord, assemble s.cfg [.write r bs, .read r bs.length] = .ok es ∧
      ∃ res : RunResult, runEvents es s = .next res ∧ res.sent = bs.map (BitVec.ofNat 8)
end

