-- ==== Sys2Proof/Laws/State.lean ====
section
/-! SUPPORT. One lemma per field per update of State: what each named update writes, and that it leaves every other field. -/

namespace Sys2Proof.Machine

variable (s : State)

@[simp] theorem State.setPhase_cfg (p : Phase) : (s.setPhase p).cfg = s.cfg := rfl
@[simp] theorem State.setPhase_phase (p : Phase) : (s.setPhase p).phase = p := rfl
@[simp] theorem State.setPhase_cursor (p : Phase) : (s.setPhase p).cursor = s.cursor := rfl
@[simp] theorem State.setPhase_laddr (p : Phase) : (s.setPhase p).laddr = s.laddr := rfl
@[simp] theorem State.setPhase_mem (p : Phase) : (s.setPhase p).mem = s.mem := rfl
@[simp] theorem State.setPhase_txValid (p : Phase) : (s.setPhase p).txValid = s.txValid := rfl
@[simp] theorem State.setPhase_txData (p : Phase) : (s.setPhase p).txData = s.txData := rfl
@[simp] theorem State.setPhase_diag (p : Phase) : (s.setPhase p).diag = s.diag := rfl
@[simp] theorem State.setPhase_inputs (p : Phase) : (s.setPhase p).inputs = s.inputs := rfl

@[simp] theorem State.setCursor_cfg (c : Byte) : (s.setCursor c).cfg = s.cfg := rfl
@[simp] theorem State.setCursor_phase (c : Byte) : (s.setCursor c).phase = s.phase := rfl
@[simp] theorem State.setCursor_cursor (c : Byte) : (s.setCursor c).cursor = c := rfl
@[simp] theorem State.setCursor_laddr (c : Byte) : (s.setCursor c).laddr = s.laddr := rfl
@[simp] theorem State.setCursor_mem (c : Byte) : (s.setCursor c).mem = s.mem := rfl
@[simp] theorem State.setCursor_txValid (c : Byte) : (s.setCursor c).txValid = s.txValid := rfl
@[simp] theorem State.setCursor_txData (c : Byte) : (s.setCursor c).txData = s.txData := rfl
@[simp] theorem State.setCursor_diag (c : Byte) : (s.setCursor c).diag = s.diag := rfl
@[simp] theorem State.setCursor_inputs (c : Byte) : (s.setCursor c).inputs = s.inputs := rfl

@[simp] theorem State.setLaddr_cfg (a : BusAddr) : (s.setLaddr a).cfg = s.cfg := rfl
@[simp] theorem State.setLaddr_phase (a : BusAddr) : (s.setLaddr a).phase = s.phase := rfl
@[simp] theorem State.setLaddr_cursor (a : BusAddr) : (s.setLaddr a).cursor = s.cursor := rfl
@[simp] theorem State.setLaddr_laddr (a : BusAddr) : (s.setLaddr a).laddr = a := rfl
@[simp] theorem State.setLaddr_mem (a : BusAddr) : (s.setLaddr a).mem = s.mem := rfl
@[simp] theorem State.setLaddr_txValid (a : BusAddr) : (s.setLaddr a).txValid = s.txValid := rfl
@[simp] theorem State.setLaddr_txData (a : BusAddr) : (s.setLaddr a).txData = s.txData := rfl
@[simp] theorem State.setLaddr_diag (a : BusAddr) : (s.setLaddr a).diag = s.diag := rfl
@[simp] theorem State.setLaddr_inputs (a : BusAddr) : (s.setLaddr a).inputs = s.inputs := rfl

@[simp] theorem State.store_cfg (a v : Byte) : (s.store a v).cfg = s.cfg := rfl
@[simp] theorem State.store_phase (a v : Byte) : (s.store a v).phase = s.phase := rfl
@[simp] theorem State.store_cursor (a v : Byte) : (s.store a v).cursor = s.cursor := rfl
@[simp] theorem State.store_laddr (a v : Byte) : (s.store a v).laddr = s.laddr := rfl
@[simp] theorem State.store_mem (a v : Byte) : (s.store a v).mem = Memory.write s.cfg s.mem a.toNat v := rfl
@[simp] theorem State.store_txValid (a v : Byte) : (s.store a v).txValid = s.txValid := rfl
@[simp] theorem State.store_txData (a v : Byte) : (s.store a v).txData = s.txData := rfl
@[simp] theorem State.store_diag (a v : Byte) : (s.store a v).diag = s.diag := rfl
@[simp] theorem State.store_inputs (a v : Byte) : (s.store a v).inputs = s.inputs := rfl

@[simp] theorem State.drive_cfg (o : Out) : (s.drive o).cfg = s.cfg := rfl
@[simp] theorem State.drive_phase (o : Out) : (s.drive o).phase = s.phase := rfl
@[simp] theorem State.drive_cursor (o : Out) : (s.drive o).cursor = s.cursor := rfl
@[simp] theorem State.drive_laddr (o : Out) : (s.drive o).laddr = s.laddr := rfl
@[simp] theorem State.drive_mem (o : Out) : (s.drive o).mem = s.mem := rfl
@[simp] theorem State.drive_txValid (o : Out) : (s.drive o).txValid = o.tx.isSome := rfl
@[simp] theorem State.drive_txData (o : Out) : (s.drive o).txData = o.tx.getD s.txData := rfl
@[simp] theorem State.drive_diag (o : Out) : (s.drive o).diag = o.diag := rfl
@[simp] theorem State.drive_inputs (o : Out) : (s.drive o).inputs = s.inputs := rfl

@[simp] theorem State.popInput_cfg : s.popInput.cfg = s.cfg := rfl
@[simp] theorem State.popInput_phase : s.popInput.phase = s.phase := rfl
@[simp] theorem State.popInput_cursor : s.popInput.cursor = s.cursor := rfl
@[simp] theorem State.popInput_laddr : s.popInput.laddr = s.laddr := rfl
@[simp] theorem State.popInput_mem : s.popInput.mem = s.mem := rfl
@[simp] theorem State.popInput_txValid : s.popInput.txValid = s.txValid := rfl
@[simp] theorem State.popInput_txData : s.popInput.txData = s.txData := rfl
@[simp] theorem State.popInput_diag : s.popInput.diag = s.diag := rfl
@[simp] theorem State.popInput_inputs : s.popInput.inputs = s.inputs.tail := rfl

@[simp] theorem State.presentNext_cfg (e : EventWord) : (s.presentNext e).cfg = s.cfg := rfl
@[simp] theorem State.presentNext_phase (e : EventWord) : (s.presentNext e).phase = s.phase := rfl
@[simp] theorem State.presentNext_cursor (e : EventWord) : (s.presentNext e).cursor = s.cursor := rfl
@[simp] theorem State.presentNext_laddr (e : EventWord) : (s.presentNext e).laddr = s.laddr := rfl
@[simp] theorem State.presentNext_mem (e : EventWord) : (s.presentNext e).mem = s.mem := rfl
@[simp] theorem State.presentNext_txValid (e : EventWord) : (s.presentNext e).txValid = s.txValid := rfl
@[simp] theorem State.presentNext_txData (e : EventWord) : (s.presentNext e).txData = s.txData := rfl
@[simp] theorem State.presentNext_diag (e : EventWord) : (s.presentNext e).diag = s.diag := rfl
@[simp] theorem State.presentNext_inputs (e : EventWord) : (s.presentNext e).inputs = ⟨false, e⟩ :: s.inputs.tail := rfl

@[simp] theorem takeReset_cfg : (takeReset s).cfg = s.cfg := rfl
@[simp] theorem takeReset_phase : (takeReset s).phase = .idle := rfl
@[simp] theorem takeReset_cursor : (takeReset s).cursor = 0x00#8 := rfl
@[simp] theorem takeReset_laddr : (takeReset s).laddr = 0b0000000#7 := rfl
@[simp] theorem takeReset_mem : (takeReset s).mem = [] := rfl
@[simp] theorem takeReset_txValid : (takeReset s).txValid = false := rfl
@[simp] theorem takeReset_txData : (takeReset s).txData = 0x00#8 := rfl
@[simp] theorem takeReset_diag : (takeReset s).diag = 0b0000#4 := rfl
@[simp] theorem takeReset_inputs : (takeReset s).inputs = s.inputs := rfl

@[simp] theorem State.resetOf_cfg (cfg : Config) (inputs : List PortInput) :
    (State.resetOf cfg inputs).cfg = cfg := rfl
@[simp] theorem State.resetOf_phase (cfg : Config) (inputs : List PortInput) :
    (State.resetOf cfg inputs).phase = .idle := rfl
@[simp] theorem State.resetOf_cursor (cfg : Config) (inputs : List PortInput) :
    (State.resetOf cfg inputs).cursor = 0x00#8 := rfl
@[simp] theorem State.resetOf_laddr (cfg : Config) (inputs : List PortInput) :
    (State.resetOf cfg inputs).laddr = 0b0000000#7 := rfl
@[simp] theorem State.resetOf_mem (cfg : Config) (inputs : List PortInput) :
    (State.resetOf cfg inputs).mem = [] := rfl
@[simp] theorem State.resetOf_txValid (cfg : Config) (inputs : List PortInput) :
    (State.resetOf cfg inputs).txValid = false := rfl
@[simp] theorem State.resetOf_txData (cfg : Config) (inputs : List PortInput) :
    (State.resetOf cfg inputs).txData = 0x00#8 := rfl
@[simp] theorem State.resetOf_diag (cfg : Config) (inputs : List PortInput) :
    (State.resetOf cfg inputs).diag = 0b0000#4 := rfl
@[simp] theorem State.resetOf_inputs (cfg : Config) (inputs : List PortInput) :
    (State.resetOf cfg inputs).inputs = inputs := rfl

end Sys2Proof.Machine
end

