-- ==== Sys2Proof/Laws/Memory.lean ====
section
/-! SUPPORT. The store: a read after a write, what a write leaves alone, that every write keeps the canonical form, and that equal
contents in that form are equal lists. -/

namespace Sys2Proof.Machine

/-- Where an index is not among the listed ones, its lookup finds nothing. -/
theorem lookup_eq_none_of_forall_ne {m : Memory} {a : Nat} (h : ∀ c ∈ m, c.1 ≠ a) : m.lookup a = none := by
  induction m with
  | nil => rfl
  | cons c m ih =>
    have hc : (a == c.1) = false := by simpa using Ne.symm (h c (by simp))
    simp only [List.lookup, hc]
    exact ih fun d hd => h d (List.mem_cons_of_mem _ hd)

/-- Lookup in a list joined of two: in the first, else in the second. -/
theorem lookup_append (m n : Memory) (a : Nat) : (m ++ n).lookup a = (m.lookup a).or (n.lookup a) := by
  induction m with
  | nil => rfl
  | cons c m ih =>
    by_cases hc : (a == c.1) = true
    · simp [List.lookup, hc]
    · simp only [Bool.not_eq_true] at hc
      simpa [List.lookup, hc] using ih

/-- A filter on indices leaves the lookup of an index it keeps. -/
theorem lookup_filter_of_true (m : Memory) (p : Nat → Bool) {a : Nat} (h : p a = true) :
    (m.filter fun c => p c.1).lookup a = m.lookup a := by
  induction m with
  | nil => rfl
  | cons c m ih =>
    by_cases hc : (a == c.1) = true
    · have : c.1 = a := (beq_iff_eq.mp hc).symm
      simp [this, h, List.lookup]
    · simp only [Bool.not_eq_true] at hc
      by_cases hp : p c.1 = true
      · simp only [List.filter_cons, hp, if_true, List.lookup, hc, ih]
      · simp only [List.filter_cons, hp, List.lookup, hc]; exact ih

/-- A filter on indices drops the lookup of an index it drops. -/
theorem lookup_filter_of_false (m : Memory) (p : Nat → Bool) {a : Nat} (h : p a = false) :
    (m.filter fun c => p c.1).lookup a = none := by
  apply lookup_eq_none_of_forall_ne
  intro c hc he
  have := (List.mem_filter.mp hc).2
  simp_all

/-- `MemRead` of the index just written gives the byte written (R51, R52). -/
@[simp] theorem Memory.read_write_same (cfg : Config) (m : Memory) (a : Nat) (v : Byte) :
    Memory.read cfg (Memory.write cfg m a v) a = v := by
  unfold Memory.read Memory.write
  rw [lookup_append, lookup_append, lookup_filter_of_false m (fun k => k < a) (by simp),
    lookup_filter_of_false m (fun k => a < k) (by simp)]
  unfold Memory.listing
  split <;> simp_all [List.lookup]

/-- "no other index changes" (R52). -/
theorem Memory.read_write_other (cfg : Config) (m : Memory) {a i : Nat} (v : Byte) (h : i ≠ a) :
    Memory.read cfg (Memory.write cfg m a v) i = Memory.read cfg m i := by
  have hl : (Memory.listing cfg a v).lookup i = none := by
    apply lookup_eq_none_of_forall_ne
    intro c hc
    unfold Memory.listing at hc
    split at hc <;> simp_all [Ne.symm h]
  unfold Memory.read Memory.write
  rw [lookup_append, lookup_append, hl]
  rcases Nat.lt_or_gt_of_ne h with hlt | hgt
  · rw [lookup_filter_of_true m (fun k => k < a) (by simpa using hlt),
      lookup_filter_of_false m (fun k => a < k) (by simp; omega)]
    simp
  · rw [lookup_filter_of_false m (fun k => k < a) (by simp; omega),
      lookup_filter_of_true m (fun k => a < k) (by simpa using hgt)]
    simp

/-- Everything a write does to the reads of the store. -/
theorem Memory.read_write (cfg : Config) (m : Memory) (a i : Nat) (v : Byte) :
    Memory.read cfg (Memory.write cfg m a v) i = if i = a then v else Memory.read cfg m i := by
  split
  · subst_vars; simp
  · exact Memory.read_write_other cfg m v ‹_›

/-- The empty listing is canonical: reset's store is. -/
theorem Memory.wf_nil (cfg : Config) : Memory.wf cfg [] := by simp [Memory.wf]

/-- A write at an index of the store keeps the canonical form. -/
theorem Memory.wf_write {cfg : Config} {m : Memory} (hm : Memory.wf cfg m) {a : Nat} (ha : a < cfg.storageLen) (v : Byte) :
    Memory.wf cfg (Memory.write cfg m a v) := by
  obtain ⟨hp, hb⟩ := hm
  have hlist : ∀ c ∈ Memory.listing cfg a v, c = (a, v) ∧ v ≠ initByte cfg a := by
    intro c hc
    unfold Memory.listing at hc
    split at hc <;> simp_all
  refine ⟨?_, ?_⟩
  · unfold Memory.write
    rw [List.pairwise_append, List.pairwise_append]
    refine ⟨⟨hp.filter _, ?_, ?_⟩, hp.filter _, ?_⟩
    · unfold Memory.listing; split <;> simp
    · intro c hc d hd
      rw [(hlist d hd).1]
      simpa using (List.mem_filter.mp hc).2
    · intro c hc d hd
      have hd' : a < d.1 := by simpa using (List.mem_filter.mp hd).2
      rcases List.mem_append.mp hc with hc | hc
      · have : c.1 < a := by simpa using (List.mem_filter.mp hc).2
        omega
      · rw [(hlist c hc).1]; exact hd'
  · intro c hc
    unfold Memory.write at hc
    rcases List.mem_append.mp hc with hc | hc
    · rcases List.mem_append.mp hc with hc | hc
      · exact hb c (List.mem_filter.mp hc).1
      · obtain ⟨rfl, hv⟩ := hlist c hc
        exact ⟨ha, hv⟩
    · exact hb c (List.mem_filter.mp hc).1

/-- The byte of the store at an index, after a store at index `a`. -/
theorem State.byteAt_store (s : State) (a v : Byte) (i : Nat) :
    (s.store a v).byteAt i = if i = a.toNat ∧ a.toNat < s.cfg.storageLen then some v else s.byteAt i := by
  unfold State.byteAt
  simp only [State.store_cfg, State.store_mem, Memory.read_write]
  by_cases h : i = a.toNat
  · subst h
    by_cases hl : a.toNat < s.cfg.storageLen <;> simp [hl]
  · simp [h]

/-- Two states with the same configuration and store show the same bytes. -/
theorem State.byteAt_congr {s t : State} (hc : t.cfg = s.cfg) (hm : t.mem = s.mem) (i : Nat) : t.byteAt i = s.byteAt i := by
  unfold State.byteAt
  rw [hc, hm]

end Sys2Proof.Machine
end

