-- ==== Sys2Proof/Laws/Operations.lean ====
section
/-! SUPPORT. What the shared operations can do: the wraparound routine, the advance, the index of an access, and the anomaly of an
access. -/

namespace Sys2Proof.Machine

/-- `zext_9` keeps the value. -/
@[simp] theorem zext9_toNat (b : Byte) : (zext9 b).toNat = b.toNat := by
  have := b.isLt
  simp only [zext9, BitVec.toNat_setWidth]
  omega

/-- The wraparound routine in plain arithmetic (20_memory.md R49). -/
theorem wrap_toNat (cfg : Config) (c : Offset9) :
    (wrap cfg c).toNat = if cfg.capacity ≤ c.toNat then 0 else c.toNat := by
  have := cfg.capacity_le
  unfold wrap
  split
  · rfl
  · simp only [BitVec.extractLsb'_toNat, Nat.shiftRight_zero]
    omega

/-- "Result is always < CAPACITY" (R49). -/
theorem wrap_lt (cfg : Config) (c : Offset9) : (wrap cfg c).toNat < cfg.capacity := by
  have := cfg.capacity_pos
  rw [wrap_toNat]
  split <;> omega

/-- The advance in plain arithmetic (R53). -/
theorem advance_toNat (cfg : Config) (a : Byte) :
    (advance cfg a).toNat = if cfg.capacity ≤ a.toNat + 1 then 0 else a.toNat + 1 := by
  have := a.isLt
  have h : (zext9 a + 1#9).toNat = a.toNat + 1 := by
    simp only [BitVec.toNat_add, zext9_toNat, BitVec.toNat_ofNat]
    omega
  rw [advance, wrap_toNat, h]

/-- The advanced cursor is in range. -/
theorem advance_lt (cfg : Config) (a : Byte) : (advance cfg a).toNat < cfg.capacity := wrap_lt cfg _

/-- The index of an access in plain arithmetic (R50). -/
theorem State.accessIndex_toNat (s : State) :
    s.accessIndex.toNat = if s.cfg.capacity ≤ s.cursor.toNat then 0 else s.cursor.toNat := by
  rw [State.accessIndex, wrap_toNat, zext9_toNat]

/-- The index of an access is below CAPACITY (R45). -/
theorem State.accessIndex_lt (s : State) : s.accessIndex.toNat < s.cfg.capacity := wrap_lt s.cfg _

/-- The index of an access is an index of the store. -/
theorem State.accessIndex_lt_storageLen (s : State) : s.accessIndex.toNat < s.cfg.storageLen :=
  Nat.lt_of_lt_of_le s.accessIndex_lt s.cfg.capacity_le_storageLen

/-- The pre-access check has no effect on a cursor in range (R50). -/
theorem State.accessIndex_of_lt {s : State} (h : s.cursor.toNat < s.cfg.capacity) : s.accessIndex = s.cursor := by
  apply BitVec.eq_of_toNat_eq
  rw [State.accessIndex_toNat, if_neg (by omega)]

/-- The pre-access check brings a cursor out of range to index 0, which is another index (R50). -/
theorem State.accessIndex_ne_iff (s : State) : s.accessIndex ≠ s.cursor ↔ s.cfg.capacity ≤ s.cursor.toNat := by
  have := s.cfg.capacity_pos
  constructor
  · intro h
    by_contra hlt
    exact h (State.accessIndex_of_lt (by omega))
  · intro h heq
    have := congrArg BitVec.toNat heq
    rw [State.accessIndex_toNat, if_pos h] at this
    omega

/-- CURSOR_PREWRAP exactly for a cursor out of range (60_exceptions.md R121). -/
theorem accessDiag_eq (s : State) : accessDiag s = if s.cfg.capacity ≤ s.cursor.toNat then 0x8#4 else 0x0#4 := by
  unfold accessDiag raiseIf
  by_cases h : s.cfg.capacity ≤ s.cursor.toNat
  · simp [(State.accessIndex_ne_iff s).mpr h, h, diagCursorPrewrap]
  · simp [State.accessIndex_of_lt (s := s) (by omega), h]

/-- ADDR_CLAMPED exactly for an address byte out of range (60_exceptions.md R118). -/
theorem addressDiag_eq (cfg : Config) (b : Byte) : addressDiag cfg b = if cfg.capacity ≤ b.toNat then 0x1#4 else 0x0#4 := by
  by_cases h : cfg.capacity ≤ b.toNat <;> simp [addressDiag, raiseIf, diagAddrClamped, h]

/-- READ_NOT_ADDRESSED exactly outside AddressReceived (60_exceptions.md R120). -/
theorem readDiag_eq (s : State) : readDiag s = if s.phase = .addressReceived then 0x0#4 else 0x4#4 := by
  by_cases h : s.phase = .addressReceived <;> simp [readDiag, raiseIf, diagReadNotAddressed, h]

/-- A fetch reads the store's byte at the index of the access (20_memory.md R51). -/
theorem State.byteAt_accessIndex (s : State) : s.byteAt s.accessIndex.toNat = some s.fetched := by
  rw [State.byteAt, if_pos s.accessIndex_lt_storageLen, State.fetched]

/-- A store at the cursor changes exactly the byte at the index of the access (20_memory.md R52). -/
theorem State.byteAt_storeAtCursor (s : State) (b : Byte) (i : Nat) :
    (s.storeAtCursor b).byteAt i = if i = s.accessIndex.toNat then some b else s.byteAt i := by
  have : (s.storeAtCursor b).byteAt i = (s.store s.accessIndex b).byteAt i := State.byteAt_congr rfl rfl i
  rw [this, State.byteAt_store]
  simp [s.accessIndex_lt_storageLen]

end Sys2Proof.Machine
end

