-- ==== Sys2Proof/Laws/Exec.lean ====
section
/-! SUPPORT. Said once: everything a step can do. Provers cite these instead of unfolding `exec` and `step`. -/

namespace Sys2Proof.Machine

/-- Everything an event can do: the event, the phase that chose the case, and the state it leaves. -/
theorem exec_cases {i : Instr} {s t : State} (h : exec i s = .next t) :
    (i = .nop ∧ t = s.drive Out.quiet) ∨
    (∃ a, i = .amW a ∧ t = ((s.setLaddr a).setPhase .awaitingAddressByte).drive Out.quiet) ∨
    (∃ a, i = .amR a ∧ t = (s.setLaddr a).drive Out.quiet) ∨
    (∃ b, i = .wr b ∧ s.phase = .idle ∧ t = wrIdle s) ∨
    (∃ b, i = .wr b ∧ s.phase = .awaitingAddressByte ∧ t = wrAddress b s) ∨
    (∃ b, i = .wr b ∧ s.phase = .addressReceived ∧ t = wrData b s) ∨
    (i = .rd false ∧ t = rdGated s) ∨
    (i = .rd true ∧ t = rdFetch s) := by
  cases i with
  | nop => cases h; exact .inl ⟨rfl, rfl⟩
  | amW a => cases h; exact .inr (.inl ⟨a, rfl, rfl⟩)
  | amR a => cases h; exact .inr (.inr (.inl ⟨a, rfl, rfl⟩))
  | wr b =>
    simp only [exec, execWr] at h
    split at h <;> cases h <;> simp_all
  | rd k => cases k <;> cases h <;> simp

/-- Everything a clock edge can do: a reset, or the decoded event on the state without the input just taken. -/
theorem step_cases {s t : State} (h : step s = .next t) :
    (s.input.rst = true ∧ t = takeReset s.popInput) ∨
    (s.input.rst = false ∧ exec (decode s.input.ev) s.popInput = .next t) := by
  unfold step at h
  split at h
  · cases h; exact .inl ⟨‹_›, rfl⟩
  · exact .inr ⟨‹_›, h⟩

end Sys2Proof.Machine
end

