-- ==== Sys2Proof/Laws/PerInstr.lean ====
section
/-! SUPPORT. What holds of every event as syntax, one lemma per constructor: its word is the one a producer drives (reserved bits
0, 30_encoding.md R72), and its word has the fixed bits of its row of the opcode map. -/

namespace Sys2Proof.Laws

/-- The event's word is canonical. -/
def EncodeCanonical.Statement (i : Instr) : Prop := EventWord.canonical (encode i) = true

theorem EncodeCanonical.nop : EncodeCanonical.Statement .nop := by
  unfold EncodeCanonical.Statement; decide

theorem EncodeCanonical.amW (a : BusAddr) : EncodeCanonical.Statement (.amW a) := by
  unfold EncodeCanonical.Statement; revert a; decide

theorem EncodeCanonical.amR (a : BusAddr) : EncodeCanonical.Statement (.amR a) := by
  unfold EncodeCanonical.Statement; revert a; decide

theorem EncodeCanonical.wr (b : Byte) : EncodeCanonical.Statement (.wr b) := by
  unfold EncodeCanonical.Statement; revert b; decide

theorem EncodeCanonical.rd (k : Bool) : EncodeCanonical.Statement (.rd k) := by
  unfold EncodeCanonical.Statement; revert k; decide

/-- The event's word is of the event's own row. -/
def EncodeMatchesRow.Statement (i : Instr) : Prop :=
  (opcodeTable.filter fun r => r.matches (encode i)).map OpcodeRow.mnemonic = [i.mnemonic]

theorem EncodeMatchesRow.nop : EncodeMatchesRow.Statement .nop := by
  unfold EncodeMatchesRow.Statement; decide

theorem EncodeMatchesRow.amW (a : BusAddr) : EncodeMatchesRow.Statement (.amW a) := by
  unfold EncodeMatchesRow.Statement; revert a; decide

theorem EncodeMatchesRow.amR (a : BusAddr) : EncodeMatchesRow.Statement (.amR a) := by
  unfold EncodeMatchesRow.Statement; revert a; decide

theorem EncodeMatchesRow.wr (b : Byte) : EncodeMatchesRow.Statement (.wr b) := by
  unfold EncodeMatchesRow.Statement; revert b; decide

theorem EncodeMatchesRow.rd (k : Bool) : EncodeMatchesRow.Statement (.rd k) := by
  unfold EncodeMatchesRow.Statement; revert k; decide

end Sys2Proof.Laws
end

