-- ==== Sys2Proof/Laws/Run.lean ====
section
/-! SUPPORT. Runs of events, one event at a time: what delivering one event is, and how a run goes on after it. -/

namespace Sys2Proof.Machine

open Sys2Proof.Safety

/-- Delivering a word is performing its event on the state itself: the inputs that come later are untouched. -/
theorem step_delivered (s : State) (e : EventWord) :
    step { s with inputs := ⟨false, e⟩ :: s.inputs } = exec (decode e) s := rfl

/-- The empty run. -/
@[simp] theorem runEvents_nil (s : State) : runEvents [] s = .next ⟨s, [], []⟩ := rfl

/-- A run goes on from the state its first event leaves. -/
theorem runEvents_cons {e : EventWord} {es : List EventWord} {s t : State} {r : RunResult}
    (h : exec (decode e) s = .next t) (hr : runEvents es t = .next r) :
    runEvents (e :: es) s = .next ⟨r.final, t.sent.toList ++ r.sent, t.diag :: r.diags⟩ := by
  simp only [runEvents, step_delivered, h, hr]

/-- The stores of a run, from its first event on. -/
theorem storesOf_cons {e : EventWord} {es : List EventWord} {s t : State} (h : exec (decode e) s = .next t) :
    storesOf (e :: es) s = storeOf (decode e) s ++ storesOf es t := by
  simp only [storesOf, step_delivered, h]

/-- The plain arithmetic of claims names the index that the meanings use. -/
theorem accessIndex_toNat_eq_indexOf (s : State) : s.accessIndex.toNat = indexOf s.cfg s.cursor.toNat :=
  s.accessIndex_toNat

/-- An index in range is its own (20_memory.md R48: below CAPACITY the wraparound has no effect). -/
theorem indexOf_of_lt {cfg : Config} {c : Nat} (h : c < cfg.capacity) : indexOf cfg c = c := if_neg (by omega)

/-- Past an index in range the cursor is the successor modulo CAPACITY (R102). -/
theorem indexOf_succ_of_lt {cfg : Config} {c : Nat} (h : c < cfg.capacity) : indexOf cfg (c + 1) = (c + 1) % cfg.capacity := by
  unfold indexOf
  split
  · rw [show c + 1 = cfg.capacity by omega, Nat.mod_self]
  · rw [Nat.mod_eq_of_lt (by omega)]

/-- The wraparound routine on a byte, in the plain arithmetic of claims. -/
theorem wrap_toNat_eq_indexOf (cfg : Config) (b : Byte) : (wrap cfg (zext9 b)).toNat = indexOf cfg b.toNat := by
  rw [wrap_toNat, zext9_toNat]; rfl

/-- The advance past the index of the access, in the plain arithmetic of claims (20_memory.md R53). -/
theorem advance_toNat_eq_indexOf (s : State) :
    (advance s.cfg s.accessIndex).toNat = indexOf s.cfg (indexOf s.cfg s.cursor.toNat + 1) := by
  rw [advance_toNat, accessIndex_toNat_eq_indexOf]; rfl

/-- The store after a data byte. -/
theorem wrData_byteAt (s : State) (b : Byte) (j : Nat) :
    (wrData b s).byteAt j = if j = indexOf s.cfg s.cursor.toNat then some b else s.byteAt j := by
  rw [← accessIndex_toNat_eq_indexOf, ← State.byteAt_storeAtCursor]
  exact State.byteAt_congr rfl rfl j

/-- The byte an open read sends. -/
theorem rdFetch_sent (s : State) : (rdFetch s).sent = s.byteAt (indexOf s.cfg s.cursor.toNat) := by
  rw [← accessIndex_toNat_eq_indexOf, State.byteAt_accessIndex]; rfl

/-- A run of one event more came through the state that its first event left. -/
theorem runEvents_cons_inv {e : EventWord} {es : List EventWord} {s : State} {r : RunResult}
    (h : runEvents (e :: es) s = .next r) :
    ∃ t r', exec (decode e) s = .next t ∧ runEvents es t = .next r' ∧
      r = ⟨r'.final, t.sent.toList ++ r'.sent, t.diag :: r'.diags⟩ := by
  simp only [runEvents, step_delivered] at h
  split at h
  · cases h
  · cases h
  · rename_i t ht
    split at h
    · cases h
    · cases h
    · rename_i r' hr
      cases h
      exact ⟨t, r', ht, hr, rfl⟩

/-- A run of two sequences is the run of the second from the end of the first. -/
theorem runEvents_append {a b : List EventWord} {s : State} {r r' : RunResult} (ha : runEvents a s = .next r)
    (hb : runEvents b r.final = .next r') :
    runEvents (a ++ b) s = .next ⟨r'.final, r.sent ++ r'.sent, r.diags ++ r'.diags⟩ := by
  induction a generalizing s r with
  | nil => cases ha; exact hb
  | cons e a ih =>
    obtain ⟨t, q, ht, hq, rfl⟩ := runEvents_cons_inv ha
    rw [List.cons_append, runEvents_cons ht (ih hq hb)]
    simp

end Sys2Proof.Machine
end

