-- ==== Sys2Proof/Tests/Slice0.lean ====
section
/-! SUPPORT. The model's own tests: words and vectors of 95_test_vectors.md (named V<n>, W<n> there), the refusals of what is ill formed,
and a witness for every statement that has hypotheses. Expected values stand in the spec. -/

namespace Sys2Proof.Tests

open Sys2Proof.Machine Sys2Proof.Safety

/-! ## Small configurations and states -/

/-- CAPACITY = STORAGE_LEN = 64, INIT_IMAGE[i] = i, SLAVE_ADDR = 0x50 (95_test_vectors.md section 3). -/
def cfg64 : Config where
  capacity := 64
  storageLen := 64
  initImage := (List.range 64).map (BitVec.ofNat 8)
  slaveAddr := 0x50#7
  capacity_pos := by decide
  capacity_le := by decide
  capacity_le_storageLen := by decide
  initImage_length := by rw [List.length_map, List.length_range]

/-- CAPACITY = STORAGE_LEN = 256, INIT_IMAGE[i] = i (95_test_vectors.md P5). -/
def cfg256 : Config where
  capacity := 256
  storageLen := 256
  initImage := (List.range 256).map (BitVec.ofNat 8)
  slaveAddr := 0x50#7
  capacity_pos := by decide
  capacity_le := by decide
  capacity_le_storageLen := by decide
  initImage_length := by rw [List.length_map, List.length_range]

/-- CAPACITY = 1 with one index more in the store. -/
def cfg1 : Config where
  capacity := 1
  storageLen := 2
  initImage := [0xA0#8, 0xA1#8]
  slaveAddr := 0x13#7
  capacity_pos := by decide
  capacity_le := by decide
  capacity_le_storageLen := by decide
  initImage_length := by decide

/-- A state of the vectors, with phase and cursor, and the rest as after reset. -/
def at_ (cfg : Config) (p : Phase) (c : Byte) : State := { State.resetOf cfg [] with phase := p, cursor := c }

/-- Phase, cursor, latched address, `tx_valid`, `tx_data` and `diag` of a next state. -/
def seen : Host.Outcome State Fault Refusal → Option (Phase × Byte × BusAddr × Bool × Byte × Diag)
  | .next t => some (t.phase, t.cursor, t.laddr, t.txValid, t.txData, t.diag)
  | .fault _ => none
  | .refused _ => none

/-- The byte of a next state's store at an index. -/
def byteIn (i : Nat) : Host.Outcome State Fault Refusal → Option Byte
  | .next t => t.byteAt i
  | .fault _ => none
  | .refused _ => none

/-- One step with a word presented. -/
def stepOn (s : State) (w : Nat) : Host.Outcome State Fault Refusal := step (s.withFetchWord 16 w)

/-! ## Well-formedness: what is refused -/

theorem test_wellFormed_events : (Instr.wr 0xFF#8).wellFormed = true ∧ (Instr.amW 0x7F#7).wellFormed = true := by decide

theorem test_canonical_refuses_reserved_bits :
    EventWord.canonical 0x1FF#11 = false ∧ EventWord.canonical 0x3A1#11 = false ∧ EventWord.canonical 0x5FF#11 = false ∧
    EventWord.canonical 0x6FF#11 = false ∧ EventWord.canonical 0x7FF#11 = false := by decide

theorem test_canonical_takes_the_specs_words :
    EventWord.canonical 0x000#11 = true ∧ EventWord.canonical 0x2A0#11 = true ∧ EventWord.canonical 0x2A1#11 = true ∧
    EventWord.canonical 0x4FF#11 = true ∧ EventWord.canonical 0x700#11 = true := by decide

theorem test_operand_ranges : inRange7 127 = true ∧ inRange7 128 = false ∧ inRange8 255 = true ∧ inRange8 256 = false := by
  decide

theorem test_decodeNumber_refuses_wide : decodeNumber 0x800 = .error .widerThanAnEventWord := by decide

theorem test_build_refuses :
    Config.build 0 1 [0x00#8] 0x50#7 = .error .capacityOutOfRange ∧
    Config.build 257 257 [] 0x50#7 = .error .capacityOutOfRange ∧
    Config.build 2 1 [0x00#8] 0x50#7 = .error .storageBelowCapacity ∧
    Config.build 1 2 [0x00#8] 0x50#7 = .error .imageLength := by decide

theorem test_build_takes_legal : Config.build 1 2 [0xA0#8, 0xA1#8] 0x13#7 = .ok cfg1 := by decide

/-! ## Decoding: the words of 95_test_vectors.md section 2.1, bit by bit from 30_encoding.md R65 -/

theorem test_decode_nop : decode 0b00000000000#11 = .nop ∧ decode 0b00111111111#11 = .nop := by decide

theorem test_decode_amW :
    decode 0b01000000000#11 = .amW 0x00#7 ∧ decode 0b01010100000#11 = .amW 0x50#7 ∧ decode 0b01011111110#11 = .amW 0x7F#7 := by
  decide

theorem test_decode_amR :
    decode 0b01000000001#11 = .amR 0x00#7 ∧ decode 0b01010100001#11 = .amR 0x50#7 ∧ decode 0b01011111111#11 = .amR 0x7F#7 ∧
    decode 0b01110100001#11 = .amR 0x50#7 := by decide

theorem test_decode_wr :
    decode 0b10000000000#11 = .wr 0x00#8 ∧ decode 0b10011111111#11 = .wr 0xFF#8 ∧ decode 0b10111111111#11 = .wr 0xFF#8 ∧
    decode 0b10000010010#11 = .wr 0x12#8 := by decide

theorem test_decode_rd :
    decode 0b11000000000#11 = .rd false ∧ decode 0b11011111111#11 = .rd false ∧ decode 0b11100000000#11 = .rd true ∧
    decode 0b11111111111#11 = .rd true := by decide

theorem test_encode_canonical_words :
    encode .nop = 0x000#11 ∧ encode (.amW 0x50#7) = 0x2A0#11 ∧ encode (.amR 0x50#7) = 0x2A1#11 ∧
    encode (.wr 0x12#8) = 0x412#11 ∧ encode (.rd true) = 0x700#11 ∧ encode (.rd false) = 0x600#11 := by decide

/-! ## One step: vectors of 95_test_vectors.md section 2 -/

/-- V2, with `tx_valid` and `diag` set before. -/
theorem test_nop_clears_outputs :
    seen (stepOn { at_ cfg64 .awaitingAddressByte 0x09#8 with txValid := true, txData := 0xAA#8, diag := 0x4#4 } 0x1FF) =
      some (.awaitingAddressByte, 0x09#8, 0x00#7, false, 0xAA#8, 0x0#4) := by decide

/-- V6. -/
theorem test_amW_from_addressReceived :
    seen (stepOn (at_ cfg64 .addressReceived 0x05#8) 0x2FE) =
      some (.awaitingAddressByte, 0x05#8, 0x7F#7, false, 0x00#8, 0x0#4) := by decide

/-- V8: an address other than SLAVE_ADDR. -/
theorem test_amW_other_address :
    seen (stepOn (at_ cfg64 .addressReceived 0x05#8) 0x226) =
      some (.awaitingAddressByte, 0x05#8, 0x13#7, false, 0x00#8, 0x0#4) := by decide

/-- V10. -/
theorem test_amR_keeps_phase :
    seen (stepOn (at_ cfg64 .awaitingAddressByte 0x07#8) 0x2A1) =
      some (.awaitingAddressByte, 0x07#8, 0x50#7, false, 0x00#8, 0x0#4) := by decide

/-- V14, V17, V19: ignored in Idle; CAPACITY - 1 is taken as it is; 0x41 gives 0, not 1. -/
theorem test_wr_ignored_or_address :
    seen (stepOn (at_ cfg64 .idle 0x03#8) 0x400) = some (.idle, 0x03#8, 0x00#7, false, 0x00#8, 0x2#4) ∧
    seen (stepOn (at_ cfg64 .awaitingAddressByte 0x07#8) 0x43F) =
      some (.addressReceived, 0x3F#8, 0x00#7, false, 0x00#8, 0x0#4) ∧
    seen (stepOn (at_ cfg64 .awaitingAddressByte 0x07#8) 0x441) =
      some (.addressReceived, 0x00#8, 0x00#7, false, 0x00#8, 0x1#4) :=
  ⟨by decide, by decide, by decide⟩

/-- V27, V32: the rollover of a store is no anomaly; a cursor out of range stores at index 0 and raises CURSOR_PREWRAP. -/
theorem test_wr_data :
    seen (stepOn (at_ cfg64 .addressReceived 0x3F#8) 0x4AB) =
      some (.addressReceived, 0x00#8, 0x00#7, false, 0x00#8, 0x0#4) ∧
    byteIn 0x3F (stepOn (at_ cfg64 .addressReceived 0x3F#8) 0x4AB) = some 0xAB#8 ∧
    seen (stepOn (at_ cfg64 .addressReceived 0x50#8) 0x411) =
      some (.addressReceived, 0x01#8, 0x00#7, false, 0x00#8, 0x8#4) ∧
    byteIn 0 (stepOn (at_ cfg64 .addressReceived 0x50#8) 0x411) = some 0x11#8 :=
  ⟨by decide, by decide, by decide, by decide⟩

/-- V38, with INIT_IMAGE[0xFF] = 0xFF: the 9-bit advance from 0xFF. -/
theorem test_rd_rollover_256 :
    seen (stepOn (at_ cfg256 .addressReceived 0xFF#8) 0x700) =
      some (.addressReceived, 0x00#8, 0x00#7, true, 0xFF#8, 0x0#4) := by decide

/-- V41, V45, V46: two anomalies in one step; a gated read makes no access, and `tx_data` stays. -/
theorem test_rd_anomalies_and_gate :
    seen (stepOn (at_ cfg64 .idle 0x50#8) 0x700) = some (.idle, 0x01#8, 0x00#7, true, 0x00#8, 0xC#4) ∧
    seen (stepOn { at_ cfg64 .addressReceived 0x50#8 with txValid := true, txData := 0xAA#8 } 0x600) =
      some (.addressReceived, 0x50#8, 0x00#7, false, 0xAA#8, 0x0#4) :=
  ⟨by decide, by decide⟩

/-- V47: reset wins over the WR presented with it. -/
theorem test_reset_wins :
    step { at_ cfg64 .addressReceived 0x21#8 with
        mem := [(0x20, 0x5A#8)], laddr := 0x50#7, txValid := true, inputs := [⟨true, 0x412#11⟩] } =
      .next (State.resetOf cfg64 []) := by rfl

/-- Right after reset the device, whatever its configuration, ignores a WR (V13). -/
theorem test_device_ignores_wr_after_reset :
    seen (stepOn State.reset 0x455) = some (.idle, 0x00#8, 0x00#7, false, 0x00#8, 0x2#4) := by decide

/-- The store's canonical form: writing the INIT_IMAGE byte back removes the entry. -/
theorem test_write_back_unlists : Memory.write cfg64 [(2, 0x77#8), (3, 0x12#8)] 3 0x03#8 = [(2, 0x77#8)] := by decide

/-! ## Scripts (30_encoding.md R76 to R84) -/

theorem test_script_text :
    assembleText cfg64 "start: am_w 0x13 ; a label, a comment\nWR 3\n\nRD nack" = .ok [0x226#11, 0x403#11, 0x600#11] := by decide

theorem test_script_pseudo_events :
    assembleText cfg64 "WRITE 0x03, 0x12, 0x34\nREADCUR 2" =
      .ok [0x2A0#11, 0x403#11, 0x412#11, 0x434#11, 0x2A1#11, 0x700#11, 0x700#11] := by decide

theorem test_script_refusals :
    assembleText cfg64 "WR 0x100" = .error .operandOutOfRange ∧ assembleText cfg64 "AM_W 128" = .error .operandOutOfRange ∧
    assembleText cfg64 "READ 1, 0" = .error .emptyTransaction ∧ assembleText cfg64 "JUMP 1" = .error .unknownMnemonic ∧
    assembleText cfg64 "WR 0xG" = .error .wrongOperands ∧ assembleText cfg64 "a b: NOP" = .error .badLabel := by decide

/-! ## Witnesses: a concrete state and operands that meet the hypotheses of each statement that has any, clause by clause -/

theorem witness_StepPerformsTheDecodedEvent :
    ({ at_ cfg64 .idle 0x00#8 with inputs := [⟨false, 0x2A0#11⟩, ⟨true, 0x000#11⟩] } : State).inputs =
      ⟨false, 0x2A0#11⟩ :: [⟨true, 0x000#11⟩] := rfl

theorem witness_ResetKeepsTheLaterInputs :
    ({ at_ cfg64 .idle 0x00#8 with inputs := [⟨true, 0x412#11⟩, ⟨false, 0x2A0#11⟩] } : State).inputs =
      ⟨true, 0x412#11⟩ :: [⟨false, 0x2A0#11⟩] := rfl

theorem witness_StepWithNoInputIsNop : (at_ cfg64 .idle 0x00#8).inputs = [] := rfl

theorem witness_PlacedWordIsPerformedNext : decodeTableWord 16 0x2A0 = some (.amW 0x50#7) := by decide

theorem witness_WriteInIdleIsIgnored : (at_ cfg64 .idle 0x00#8).phase = .idle := rfl

/-- The last byte taken as it is and the first one clamped. -/
theorem witness_AddressByteSetsTheCursorClamped :
    (at_ cfg64 .awaitingAddressByte 0x07#8).phase = .awaitingAddressByte ∧
    ¬ cfg64.capacity ≤ (0x3F#8 : Byte).toNat ∧ cfg64.capacity ≤ (0x40#8 : Byte).toNat := by decide

/-- An index that advances, the one that rolls over, and the first cursor out of range. -/
theorem witness_DataByteIsStoredAtTheCursor :
    (at_ cfg64 .addressReceived 0x3E#8).phase = .addressReceived ∧
    indexOf cfg64 0x3E + 1 < cfg64.capacity ∧ ¬ indexOf cfg64 0x3F + 1 < cfg64.capacity ∧
    cfg64.capacity ≤ (0x40#8 : Byte).toNat ∧ indexOf cfg64 0x40 = 0 := by decide

/-- Both phases of the diagnostic clauses. -/
theorem witness_GatedReadChangesNoState :
    (at_ cfg64 .addressReceived 0x40#8).phase = .addressReceived ∧ (at_ cfg64 .idle 0x00#8).phase ≠ .addressReceived := by decide

/-- A step of each of the two events that change the phase. -/
theorem witness_PhaseChangesOnlyByMatchAndAddressByte :
    (∃ t, ((at_ cfg64 .idle 0x00#8).withFetchWord 16 0x2A0).input.rst = false ∧
      step ((at_ cfg64 .idle 0x00#8).withFetchWord 16 0x2A0) = .next t ∧ t.phase ≠ .idle) ∧
    (∃ t, step ((at_ cfg64 .awaitingAddressByte 0x00#8).withFetchWord 16 0x440) = .next t ∧ t.phase = .addressReceived) ∧
    ∃ t, step ((at_ cfg64 .idle 0x00#8).withFetchWord 16 0x440) = .next t ∧ t.phase = .idle :=
  ⟨⟨_, rfl, rfl, by decide⟩, ⟨_, rfl, rfl⟩, ⟨_, rfl, rfl⟩⟩

/-- A next state in each case of the cursor's rule: the three paths and the events that leave it. -/
theorem witness_CursorIsWrittenOnlyByItsThreePaths :
    (∃ t, exec (.wr 0x40#8) (at_ cfg64 .awaitingAddressByte 0x07#8) = .next t ∧ t.cursor = 0x00#8) ∧
    (∃ t, exec (.wr 0x40#8) (at_ cfg64 .addressReceived 0x3F#8) = .next t ∧ t.cursor = 0x00#8) ∧
    (∃ t, exec (.rd true) (at_ cfg64 .idle 0x3F#8) = .next t ∧ t.cursor = 0x00#8) ∧
    ∃ t, exec (.rd false) (at_ cfg64 .idle 0x3F#8) = .next t ∧ t.cursor = 0x3F#8 :=
  ⟨⟨_, rfl, by decide⟩, ⟨_, rfl, by decide⟩, ⟨_, rfl, by decide⟩, ⟨_, rfl, by decide⟩⟩

/-- A step that changes a byte of the store. -/
theorem witness_StoreChangesOnlyByDataBytes :
    ∃ t, exec (.wr 0x12#8) (at_ cfg64 .addressReceived 0x03#8) = .next t ∧
      t.byteAt 3 ≠ (at_ cfg64 .addressReceived 0x03#8).byteAt 3 :=
  ⟨_, rfl, by decide⟩

theorem witness_OnlyOpenReadsTransmit :
    (∃ t, exec (.rd true) (at_ cfg64 .idle 0x05#8) = .next t ∧ t.txData = 0x05#8) ∧
    ∃ t, exec (.rd false) (at_ cfg64 .idle 0x05#8) = .next t ∧ t.txData = 0x00#8 :=
  ⟨⟨_, rfl, by decide⟩, ⟨_, rfl, by decide⟩⟩

theorem witness_ConfigurationNeverChanges :
    ∃ t, step ({ at_ cfg64 .idle 0x05#8 with inputs := [⟨true, 0x000#11⟩] } : State) = .next t :=
  ⟨_, rfl⟩

/-- A step for each diagnostic bit, and for the pair. -/
theorem witness_EachDiagnosticBitExactlyByItsCause :
    (∃ t, exec (.wr 0x40#8) (at_ cfg64 .awaitingAddressByte 0x07#8) = .next t ∧ t.diag = 0x1#4) ∧
    (∃ t, exec (.wr 0x40#8) (at_ cfg64 .idle 0x07#8) = .next t ∧ t.diag = 0x2#4) ∧
    (∃ t, exec (.rd false) (at_ cfg64 .awaitingAddressByte 0x07#8) = .next t ∧ t.diag = 0x4#4) ∧
    (∃ t, exec (.rd true) (at_ cfg64 .addressReceived 0x40#8) = .next t ∧ t.diag = 0x8#4) :=
  ⟨⟨_, rfl, by decide⟩, ⟨_, rfl, by decide⟩, ⟨_, rfl, by decide⟩, ⟨_, rfl, by decide⟩⟩

theorem witness_OnlyOnePairOfAnomaliesInOneStep :
    ∃ t, exec (.rd true) (at_ cfg64 .idle 0x40#8) = .next t ∧ t.diag = 0xC#4 := ⟨_, rfl, by decide⟩

/-- The disjuncts with conditions: a gated read and the rollover, in AddressReceived. -/
theorem witness_NormalEventsRaiseNoAnomaly :
    (at_ cfg64 .addressReceived 0x3F#8).phase = .addressReceived ∧
    (at_ cfg64 .addressReceived 0x3F#8).cursor.toNat + 1 = cfg64.capacity := by decide

theorem witness_DiagnosticsNeverChangeBehaviour : ([0x700#11] : List EventWord) ≠ [] := by decide

theorem witness_LatchedAddressIsNeverRead :
    (∃ t, exec (.amW 0x50#7) (at_ cfg64 .idle 0x00#8) = .next t) ∧
    (∃ t, exec (.amR 0x51#7) (at_ cfg64 .idle 0x00#8) = .next t) ∧ ∃ t, exec .nop (at_ cfg64 .idle 0x00#8) = .next t :=
  ⟨⟨_, rfl⟩, ⟨_, rfl⟩, ⟨_, rfl⟩⟩

/-- A state of the invariant other than reset's, at the top of the store, and its next state. -/
theorem witness_StepKeepsTheInvariant :
    Inv { at_ cfg64 .addressReceived 0x3F#8 with mem := [(3, 0x12#8)] } ∧
    ∃ t, step (({ at_ cfg64 .addressReceived 0x3F#8 with mem := [(3, 0x12#8)] } : State).withFetchWord 16 0x4AB) = .next t := by
  refine ⟨⟨by decide, by decide, fun i hi => ?_⟩, ⟨_, rfl⟩⟩
  have hn : ¬ i < 64 := Nat.not_lt.mpr hi
  simp [State.byteAt, at_, State.resetOf, cfg64, hn]

/-- A reachable state, one step after reset. -/
theorem witness_reachable :
    ∃ t, step (State.resetOf cfg64 [⟨false, 0x2A0#11⟩]) = .next t ∧ Reachable t ∧ t.phase = .awaitingAddressByte :=
  ⟨_, rfl, .step (.reset cfg64 [⟨false, 0x2A0#11⟩]) rfl, rfl⟩

/-- A reachable state with an index at CAPACITY: `cfg1` has one index more than CAPACITY. -/
theorem witness_SurplusIndicesKeepTheImage :
    Reachable (State.resetOf cfg1 []) ∧ cfg1.capacity ≤ 1 ∧ (State.resetOf cfg1 []).byteAt 1 = some 0xA1#8 :=
  ⟨.reset cfg1 [], by decide, by decide⟩

theorem witness_CursorPrewrapNeverFromReset :
    (∃ t, exec (.wr 0x11#8) (at_ cfg64 .addressReceived 0x40#8) = .next t ∧ t.diag = 0x8#4) ∧ Reachable (State.resetOf cfg64 []) :=
  ⟨⟨_, rfl, by decide⟩, .reset cfg64 []⟩

theorem witness_EqualStoresAreEqualData :
    Memory.wf cfg1 [(0, 0x77#8)] ∧
    ∀ i, i < cfg1.storageLen → Memory.read cfg1 [(0, 0x77#8)] i = Memory.read cfg1 (Memory.write cfg1 [] 0 0x77#8) i := by
  decide

/-- A word of each clause at the edges of its range. -/
theorem witness_DecodeReadsTheFields :
    (0x1FF#11).toNat / 512 = 0 ∧ (0x200#11).toNat / 512 = 1 ∧ (0x3FF#11).toNat / 512 = 1 ∧ (0x200#11).toNat % 2 = 0 ∧
    (0x3FF#11).toNat % 2 = 1 ∧ (0x400#11).toNat / 512 = 2 ∧ (0x5FF#11).toNat / 512 = 2 ∧ (0x600#11).toNat / 512 = 3 ∧
    (0x7FF#11).toNat / 512 = 3 := by decide

theorem witness_ReservedBitsAreIgnored :
    (0x3A1#11 &&& EventWord.usedBits 0x3A1#11) = (0x2A1#11 &&& EventWord.usedBits 0x2A1#11) ∧ 0x7FF < 2048 := by decide

/-- WR events with a NOP and an AM_R between them, and open reads, from the last index. -/
theorem witness_CursorLaw :
    (at_ cfg64 .addressReceived 0x3F#8).phase = .addressReceived ∧
    (at_ cfg64 .addressReceived 0x3F#8).cursor.toNat < cfg64.capacity ∧
    (∀ e ∈ ([0x4A1#11, 0x000#11, 0x2A1#11, 0x4A2#11, 0x600#11] : List EventWord),
      (writtenByte (decode e)).isSome = true ∨ leavesCursor (decode e) = true) ∧
    (∀ e ∈ ([0x700#11, 0x000#11, 0x700#11] : List EventWord), decode e = .rd true ∨ leavesCursor (decode e) = true) := by decide

theorem witness_ReadReturnsTheLastByteStored : (0x3F#8 : Byte).toNat < (at_ cfg64 .idle 0x00#8).cfg.capacity := by decide

theorem witness_ReadAfterDataByteReadsTheNextIndex : (at_ cfg1 .addressReceived 0x00#8).phase = .addressReceived := rfl

theorem witness_ReadWithoutAddressUsesTheOldCursor :
    (at_ cfg64 .addressReceived 0x3F#8).cursor.toNat < (at_ cfg64 .addressReceived 0x3F#8).cfg.capacity := by decide

theorem witness_NoRunEndsAndNoneReturnsToIdle :
    ∃ r, runEvents (encode (.amW 0x50#7) :: [0x403#11]) (State.resetOf cfg64 []) = .next r ∧ r.final.phase = .addressReceived :=
  ⟨_, rfl, by decide⟩

/-- A run with no address byte that holds every event it may: an ignored WR, RD, NOP, AM_R, a gated RD, AM_W, and RDs after it. -/
theorem witness_ReadBeforeAddressingStartsAtZero :
    ([0x455#11, 0x700#11, 0x000#11, 0x2A1#11, 0x600#11, 0x2A0#11, 0x700#11, 0x2A1#11, 0x700#11] : List EventWord).Pairwise
      (fun e f => (∃ a, decode e = .amW a) → ∀ b, decode f ≠ .wr b) := by
  simp [List.pairwise_cons, decode, EventWord.kind, EventWord.readIntent]

/-- Each clause at its value of CAPACITY. -/
theorem witness_WriteCornersOfTheCapacityRange :
    (at_ cfg256 .awaitingAddressByte 0x00#8).cfg.capacity = 256 ∧
    (at_ cfg256 .addressReceived 0xFF#8).cursor = 0xFF#8 ∧ (at_ cfg256 .addressReceived 0xFF#8).phase = .addressReceived ∧
    (at_ cfg1 .awaitingAddressByte 0x00#8).cfg.capacity = 1 ∧ (at_ cfg1 .addressReceived 0x00#8).phase = .addressReceived := by
  decide

/-- Legal values at both ends of the range, and an illegal one of each kind. -/
theorem witness_IllegalConfigurationIsRefused :
    (1 ≤ 1 ∧ 1 ≤ 256 ∧ 1 ≤ 1 ∧ ([0x00#8] : List Byte).length = 1) ∧
    (1 ≤ 256 ∧ 256 ≤ 256 ∧ 256 ≤ 256 ∧ cfg256.initImage.length = 256) ∧
    ¬(1 ≤ 0 ∧ 0 ≤ 256 ∧ 0 ≤ 1 ∧ ([0x00#8] : List Byte).length = 1) ∧
    ¬(1 ≤ 257 ∧ 257 ≤ 256 ∧ 257 ≤ 257 ∧ ([] : List Byte).length = 257) ∧
    ¬(1 ≤ 2 ∧ 2 ≤ 256 ∧ 2 ≤ 1 ∧ ([0x00#8] : List Byte).length = 1) ∧
    ¬(1 ≤ 1 ∧ 1 ≤ 256 ∧ 1 ≤ 2 ∧ ([0x00#8] : List Byte).length = 2) :=
  ⟨by decide, ⟨by decide, by decide, by decide, cfg256.initImage_length⟩, by decide, by decide, by decide, by decide⟩

/-- The last operand in range and the first out of it. -/
theorem witness_ScriptLinesStandForTheirWords :
    0x7F ≤ 0x7F ∧ 0x7F < 0x80 ∧ 0xFF ≤ 0xFF ∧ 0xFF < 0x100 ∧
    (ScriptLine.amW (some 0x80)).words cfg64 = .error .operandOutOfRange ∧
    (ScriptLine.wr 0x100).words cfg64 = .error .operandOutOfRange := by decide

/-- Two bytes across the top of the store. -/
theorem witness_BlockReadReturnsTheBlockWritten :
    0x3F < (at_ cfg64 .idle 0x00#8).cfg.capacity ∧ ([0xA1, 0xA2] : List Nat) ≠ [] ∧
    ([0xA1, 0xA2] : List Nat).length ≤ (at_ cfg64 .idle 0x00#8).cfg.capacity ∧ ∀ b ∈ ([0xA1, 0xA2] : List Nat), b ≤ 0xFF := by decide

end Sys2Proof.Tests
end

section
/-! What one event and one clock edge do to the configuration, the phase, the cursor and the transmit registers, each said once
from `exec_cases`; and the induction over the states reachable from reset. -/

namespace Sys2Proof.Machine

open Sys2Proof.Safety

/-! ## Reset -/

/-- After reset the store is INIT_IMAGE, with no index beyond it (R39, R45). -/
theorem State.byteAt_resetOf (cfg : Config) (inputs : List PortInput) (i : Nat) :
    (State.resetOf cfg inputs).byteAt i = cfg.initImage[i]? := by
  have hlen := cfg.initImage_length
  by_cases hi : i < cfg.storageLen
  · simp [State.byteAt, Memory.read, initByte, hi, hlen]
  · simp [State.byteAt, hi, hlen]

/-! ## The configuration -/

/-- No event writes the configuration (R31). -/
theorem exec_cfg {i : Instr} {s t : State} (h : exec i s = .next t) : t.cfg = s.cfg := by
  obtain ⟨-, rfl⟩ | ⟨_, -, rfl⟩ | ⟨_, -, rfl⟩ | ⟨_, -, -, rfl⟩ | ⟨_, -, -, rfl⟩ | ⟨_, -, -, rfl⟩ | ⟨-, rfl⟩ | ⟨-, rfl⟩ :=
    exec_cases h <;> rfl

/-- No clock edge writes the configuration, a reset included (R31). -/
theorem step_cfg {s t : State} (h : step s = .next t) : t.cfg = s.cfg := by
  obtain ⟨-, rfl⟩ | ⟨-, h⟩ := step_cases h
  · rfl
  · rw [exec_cfg h, State.popInput_cfg]

/-! ## The phase -/

/-- The phase an event leaves (the next phases of 40_slave_events.md R100). -/
def phaseAfter : Instr → Phase → Phase
  | .amW _, _ => .awaitingAddressByte
  | .wr _, .awaitingAddressByte => .addressReceived
  | _, p => p

/-- Every event leaves the phase that `phaseAfter` names. -/
theorem exec_phase {i : Instr} {s t : State} (h : exec i s = .next t) : t.phase = phaseAfter i s.phase := by
  obtain ⟨rfl, rfl⟩ | ⟨_, rfl, rfl⟩ | ⟨_, rfl, rfl⟩ | ⟨_, rfl, hp, rfl⟩ | ⟨_, rfl, hp, rfl⟩ | ⟨_, rfl, hp, rfl⟩ |
    ⟨rfl, rfl⟩ | ⟨rfl, rfl⟩ := exec_cases h
  · rfl
  · rfl
  · rfl
  · simp [wrIdle, phaseAfter, hp]
  · simp [wrAddress, phaseAfter, hp]
  · simp [wrData, State.storeAtCursor, phaseAfter, hp]
  · rfl
  · rfl

/-- A changed phase is AwaitingAddressByte by an AM_W or AddressReceived by the address byte (R22). -/
theorem phaseAfter_of_ne {i : Instr} {p : Phase} (h : phaseAfter i p ≠ p) :
    (∃ a, i = .amW a ∧ phaseAfter i p = .awaitingAddressByte) ∨
    (∃ b, i = .wr b ∧ p = .awaitingAddressByte ∧ phaseAfter i p = .addressReceived) := by
  cases i with
  | nop => exact absurd rfl h
  | amW a => exact .inl ⟨a, rfl, rfl⟩
  | amR a => exact absurd rfl h
  | wr b =>
    cases p with
    | idle => exact absurd rfl h
    | awaitingAddressByte => exact .inr ⟨b, rfl, rfl, rfl⟩
    | addressReceived => exact absurd rfl h
  | rd k => exact absurd rfl h

/-- Idle is left by AM_W and never entered (R22). -/
theorem phaseAfter_eq_idle {i : Instr} {p : Phase} (h : phaseAfter i p = .idle) : p = .idle ∧ ∀ a, i ≠ .amW a := by
  constructor
  · by_contra hp
    have hne : phaseAfter i p ≠ p := by rw [h]; exact Ne.symm hp
    obtain ⟨_, _, he⟩ | ⟨_, _, _, he⟩ := phaseAfter_of_ne hne
    · simp [h] at he
    · simp [h] at he
  · rintro a rfl
    cases h

/-- A clock edge without a reset performs the decoded event on the state without the input taken (R85). -/
theorem exec_of_step {s t : State} (hr : s.input.rst = false) (h : step s = .next t) :
    exec (decode s.input.ev) s.popInput = .next t := by
  obtain ⟨hrst, -⟩ | ⟨-, h⟩ := step_cases h
  · simp [hr] at hrst
  · exact h

/-! ## The transmit registers -/

/-- The byte an event hands over for transmission: the byte fetched, by an open read only (R96). -/
def transmitted : Instr → State → Option Byte
  | .rd true, s => some s.fetched
  | _, _ => none

/-- Every event latches its byte handed over, and `tx_data` keeps its value where there is none (R33). -/
theorem exec_tx {i : Instr} {s t : State} (h : exec i s = .next t) :
    t.txValid = (transmitted i s).isSome ∧ t.txData = (transmitted i s).getD s.txData := by
  obtain ⟨rfl, rfl⟩ | ⟨_, rfl, rfl⟩ | ⟨_, rfl, rfl⟩ | ⟨_, rfl, -, rfl⟩ | ⟨_, rfl, -, rfl⟩ | ⟨_, rfl, -, rfl⟩ |
    ⟨rfl, rfl⟩ | ⟨rfl, rfl⟩ := exec_cases h <;> exact ⟨rfl, rfl⟩

/-- Only an open read hands over a byte. -/
theorem transmitted_isSome_iff {i : Instr} {s : State} : (transmitted i s).isSome = true ↔ i = .rd true := by
  unfold transmitted
  split <;> simp_all

/-! ## The cursor -/

/-- Every event leaves the cursor or gives it a value that went through the wraparound routine (R23, R49). -/
theorem exec_cursor_eq_or_lt {i : Instr} {s t : State} (h : exec i s = .next t) :
    t.cursor = s.cursor ∨ t.cursor.toNat < s.cfg.capacity := by
  obtain ⟨-, rfl⟩ | ⟨_, -, rfl⟩ | ⟨_, -, rfl⟩ | ⟨_, -, -, rfl⟩ | ⟨b, -, -, rfl⟩ | ⟨_, -, -, rfl⟩ | ⟨-, rfl⟩ | ⟨-, rfl⟩ :=
    exec_cases h
  · exact .inl rfl
  · exact .inl rfl
  · exact .inl rfl
  · exact .inl rfl
  · exact .inr (wrap_lt s.cfg (zext9 b))
  · exact .inr (advance_lt s.cfg s.accessIndex)
  · exact .inl rfl
  · exact .inr (advance_lt s.cfg s.accessIndex)

/-- Every event keeps the cursor below CAPACITY (R24). -/
theorem exec_cursor_lt {i : Instr} {s t : State} (h : exec i s = .next t) (hs : s.cursor.toNat < s.cfg.capacity) :
    t.cursor.toNat < t.cfg.capacity := by
  rw [exec_cfg h]
  obtain heq | hlt := exec_cursor_eq_or_lt h
  · rwa [heq]
  · exact hlt

/-! ## Reachable states -/

/-- What holds after every reset, does not speak of the inputs to come, and is kept by every event, holds of every reachable state
(70_reset_and_hazards.md R139). -/
theorem reachable_induction {P : State → Prop} (hreset : ∀ cfg inputs, P (State.resetOf cfg inputs))
    (hpop : ∀ s : State, P s → P s.popInput) (hexec : ∀ (i : Instr) (s t : State), exec i s = .next t → P s → P t)
    {s : State} (hs : Reachable s) : P s := by
  induction hs with
  | reset cfg inputs => exact hreset cfg inputs
  | step _ hstep ih =>
    obtain ⟨-, rfl⟩ | ⟨-, h⟩ := step_cases hstep
    · exact hreset _ _
    · exact hexec _ _ _ h (hpop _ ih)

end Sys2Proof.Machine
end

section
/-! The obligations of 10_state.md. -/

namespace Sys2Proof.Settled

open Sys2Proof.Machine Sys2Proof.Safety

/-- Settles O16: the event of an edge without a reset leaves the phase that `phaseAfter` names. -/
theorem phaseChangesOnlyByMatchAndAddressByte : Obligations.PhaseChangesOnlyByMatchAndAddressByte := by
  intro s t hr h
  rw [exec_phase (exec_of_step hr h), State.popInput_phase]
  exact ⟨phaseAfter_of_ne, phaseAfter_eq_idle⟩

/-- Settles O19: only an open read hands over a byte, the one at the index of its access. -/
theorem onlyOpenReadsTransmit : Obligations.OnlyOpenReadsTransmit := by
  refine ⟨fun i s t h => ?_, fun _ _ => ⟨rfl, rfl⟩⟩
  obtain ⟨hvalid, hdata⟩ := exec_tx h
  refine ⟨?_, ?_, fun hi => ?_⟩
  · rw [hvalid, transmitted_isSome_iff]
  · rintro rfl
    rw [hdata, ← accessIndex_toNat_eq_indexOf, State.byteAt_accessIndex]
    rfl
  · have hnone : transmitted i s = none := by simpa using mt transmitted_isSome_iff.mp hi
    rw [hdata, hnone]
    rfl

/-- Settles O30, by induction over the reachable states: every event keeps the cursor in range. -/
theorem reachableCursorIsBelowCapacity : Obligations.ReachableCursorIsBelowCapacity := by
  intro s hs
  refine reachable_induction (P := fun s => s.cursor.toNat < s.cfg.capacity) ?_ ?_ ?_ hs
  · intro cfg inputs
    exact cfg.capacity_pos
  · intro s hlt
    exact hlt
  · intro i s t h hlt
    exact exec_cursor_lt h hlt

/-- Settles O1: the empty listing after reset shows INIT_IMAGE; the fields are those of `State.resetOf`. -/
theorem resetLeavesTheResetValues : Obligations.ResetLeavesTheResetValues :=
  ⟨fun cfg inputs => ⟨rfl, rfl, rfl, State.byteAt_resetOf cfg inputs, rfl, rfl, rfl, rfl⟩, rfl⟩

/-- Settles O20: no clock edge writes the configuration, and the port shows its SLAVE_ADDR. -/
theorem configurationNeverChanges : Obligations.ConfigurationNeverChanges := by
  intro s t h
  have hcfg : t.cfg = s.cfg := step_cfg h
  exact ⟨hcfg, congrArg Config.slaveAddr hcfg⟩

/-- Settles O21: `State.ports` reads the fields it shows, and neither the store nor the inputs. -/
theorem statusPortsShowTheState : Obligations.StatusPortsShowTheState :=
  fun _ => ⟨rfl, rfl, rfl, fun _ _ => rfl⟩

end Sys2Proof.Settled
end

section
/-! The fields of the event word: what each reads of a word put together from fields, what decode answers for each of their values,
and that decode and encode are inverse up to the reserved bits. -/

namespace Sys2Proof

/-! ## The fields (30_encoding.md R65) -/

/-- One bit of a word as a word of one bit. -/
theorem ofBool_getLsbD {w : Nat} (x : BitVec w) (i : Nat) : BitVec.ofBool (x.getLsbD i) = x.extractLsb' i 1 := by
  ext j hj
  obtain rfl : j = 0 := by omega
  simp

/-- A word is its fields side by side. -/
theorem EventWord.ofFields_fields (e : EventWord) :
    EventWord.ofFields (EventWord.kind e) (EventWord.ack e) (EventWord.data e) = e := by
  have hlow : (BitVec.ofBool (EventWord.ack e) ++ EventWord.data e : BitVec 9) = e.extractLsb' 0 9 := by
    rw [EventWord.ack, ofBool_getLsbD]
    exact BitVec.extractLsb'_append_extractLsb'_eq_extractLsb' rfl
  rw [EventWord.ofFields, hlow]
  exact BitVec.extractLsb'_append_extractLsb' (w := 2) (len := 9)

@[simp] theorem EventWord.kind_ofFields (k : BitVec 2) (a : Bool) (d : Byte) :
    EventWord.kind (EventWord.ofFields k a d) = k :=
  BitVec.extractLsb'_append_eq_left

@[simp] theorem EventWord.ack_ofFields (k : BitVec 2) (a : Bool) (d : Byte) :
    EventWord.ack (EventWord.ofFields k a d) = a := by
  simp only [EventWord.ack, EventWord.ofFields, BitVec.getLsbD_append]
  simp

@[simp] theorem EventWord.data_ofFields (k : BitVec 2) (a : Bool) (d : Byte) :
    EventWord.data (EventWord.ofFields k a d) = d :=
  (BitVec.extractLsb'_append_eq_of_add_le (by decide)).trans BitVec.extractLsb'_append_eq_right

/-- A mask on a word is a mask on each field. -/
theorem EventWord.and_ofFields (e : EventWord) (k : BitVec 2) (a : Bool) (d : Byte) :
    e &&& EventWord.ofFields k a d =
      EventWord.ofFields (EventWord.kind e &&& k) (EventWord.ack e && a) (EventWord.data e &&& d) := by
  calc e &&& EventWord.ofFields k a d
      = EventWord.ofFields (EventWord.kind e) (EventWord.ack e) (EventWord.data e) &&& EventWord.ofFields k a d := by
        rw [EventWord.ofFields_fields]
    _ = (EventWord.kind e &&& k) ++
          ((BitVec.ofBool (EventWord.ack e) ++ EventWord.data e) &&& (BitVec.ofBool a ++ d)) := BitVec.and_append
    _ = EventWord.ofFields (EventWord.kind e &&& k) (EventWord.ack e && a) (EventWord.data e &&& d) := by
        rw [BitVec.and_append, BitVec.ofBool_and_ofBool, EventWord.ofFields]

/-- The DATA of an address match is the bus address, then the direction (R67). -/
theorem EventWord.data_eq_append (e : EventWord) :
    EventWord.data e = EventWord.busAddr e ++ BitVec.ofBool (EventWord.readIntent e) := by
  rw [EventWord.readIntent, ofBool_getLsbD]
  exact (BitVec.extractLsb'_append_extractLsb'_eq_extractLsb' (x := e) (start₂ := 1) (len₂ := 7) (len₁ := 1) rfl).symm

/-- The bus address of a word put together from fields. -/
@[simp] theorem EventWord.busAddr_ofFields (k : BitVec 2) (a : Bool) (addr : BusAddr) (dir : BitVec 1) :
    EventWord.busAddr (EventWord.ofFields k a (addr ++ dir)) = addr :=
  calc EventWord.busAddr (EventWord.ofFields k a (addr ++ dir))
      = (BitVec.ofBool a ++ (addr ++ dir)).extractLsb' 1 7 := BitVec.extractLsb'_append_eq_of_add_le (by decide)
    _ = (addr ++ dir).extractLsb' 1 7 := BitVec.extractLsb'_append_eq_of_add_le (by decide)
    _ = addr := BitVec.extractLsb'_append_eq_left

/-- The direction of a word put together from fields. -/
@[simp] theorem EventWord.readIntent_ofFields (k : BitVec 2) (a : Bool) (addr : BusAddr) (dir : BitVec 1) :
    EventWord.readIntent (EventWord.ofFields k a (addr ++ dir)) = dir.getLsbD 0 := by
  simp only [EventWord.readIntent, EventWord.ofFields, BitVec.getLsbD_append]
  simp

/-! ## The fields in plain arithmetic (30_encoding.md R73) -/

theorem EventWord.kind_toNat (e : EventWord) : (EventWord.kind e).toNat = e.toNat / 512 := by
  have := e.isLt
  simp only [EventWord.kind, BitVec.extractLsb'_toNat, Nat.shiftRight_eq_div_pow]
  omega

theorem EventWord.readIntent_toNat (e : EventWord) : (EventWord.readIntent e).toNat = e.toNat % 2 :=
  (Nat.toNat_testBit e.toNat 0).trans (by rw [Nat.pow_zero, Nat.div_one])

theorem EventWord.ack_eq_decide (e : EventWord) : EventWord.ack e = decide (e.toNat / 256 % 2 = 1) :=
  Nat.testBit_eq_decide_div_mod_eq

theorem EventWord.busAddr_eq_ofNat (e : EventWord) : EventWord.busAddr e = BitVec.ofNat 7 (e.toNat / 2) := rfl

theorem EventWord.data_eq_ofNat (e : EventWord) : EventWord.data e = BitVec.ofNat 8 e.toNat := rfl

/-! ## Decode (30_encoding.md R73) -/

/-- Everything decode can answer: the KIND, the direction of an address match, and the event. -/
theorem decode_cases (e : EventWord) :
    (EventWord.kind e = 0b00#2 ∧ decode e = .nop) ∨
    (EventWord.kind e = 0b01#2 ∧ EventWord.readIntent e = false ∧ decode e = .amW (EventWord.busAddr e)) ∨
    (EventWord.kind e = 0b01#2 ∧ EventWord.readIntent e = true ∧ decode e = .amR (EventWord.busAddr e)) ∨
    (EventWord.kind e = 0b10#2 ∧ decode e = .wr (EventWord.data e)) ∨
    (EventWord.kind e = 0b11#2 ∧ decode e = .rd (EventWord.ack e)) := by
  have hkind : ∀ k : BitVec 2, k = 0b00#2 ∨ k = 0b01#2 ∨ k = 0b10#2 ∨ k = 0b11#2 := by decide
  obtain hk | hk | hk | hk := hkind (EventWord.kind e)
  · simp [decode, hk]
  · cases hr : EventWord.readIntent e <;> simp [decode, hk, hr]
  · simp [decode, hk]
  · simp [decode, hk]

/-- Decoding the word of an event gives the event (R72, R73). -/
theorem decode_encode (i : Instr) : decode (encode i) = i := by
  cases i with
  | nop => rfl
  | amW a => simp [decode, encode]
  | amR a => simp [decode, encode]
  | wr b => simp [decode, encode]
  | rd k => simp [decode, encode]

theorem encode_injective : Function.Injective encode := Function.LeftInverse.injective decode_encode

/-- The used bits, field by field: KIND always, ACK for RD alone, DATA for an address match and WR (R72). -/
theorem EventWord.usedBits_eq (e : EventWord) :
    EventWord.usedBits e =
      EventWord.ofFields 0b11#2 (EventWord.kind e == 0b11#2)
        (if EventWord.kind e = 0b00#2 ∨ EventWord.kind e = 0b11#2 then 0x00#8 else 0xFF#8) := by
  have hkind : e.extractLsb' 9 2 = EventWord.kind e := rfl
  rw [EventWord.usedBits, hkind]
  generalize EventWord.kind e = k
  revert k
  decide

/-- Encoding the event of a word clears the word's reserved bits (R72). -/
theorem encode_decode (e : EventWord) : encode (decode e) = e &&& EventWord.usedBits e := by
  rw [EventWord.usedBits_eq, EventWord.and_ofFields]
  have hones (d : Byte) : d &&& 0xFF#8 = d := BitVec.and_allOnes
  obtain ⟨hk, hd⟩ | ⟨hk, hr, hd⟩ | ⟨hk, hr, hd⟩ | ⟨hk, hd⟩ | ⟨hk, hd⟩ := decode_cases e
  · simp [hd, hk, encode]
  · simp [hd, hk, encode, hones, EventWord.data_eq_append e, hr]
  · simp [hd, hk, encode, hones, EventWord.data_eq_append e, hr]
  · simp [hd, hk, encode, hones]
  · simp [hd, hk, encode]

/-- Words that differ in reserved bits only are of one event (R72). -/
theorem decode_eq_of_and_usedBits_eq {e f : EventWord} (h : e &&& EventWord.usedBits e = f &&& EventWord.usedBits f) :
    decode e = decode f :=
  encode_injective (by rw [encode_decode, encode_decode, h])

/-! ## The opcode map (30_encoding.md section 3) -/

/-- The bits the opcode map reads: KIND, and bit 0 for the direction. -/
theorem EventWord.and_rowBits (e : EventWord) :
    e &&& 0x601#11 =
      EventWord.ofFields (EventWord.kind e) false (0b0000000#7 ++ BitVec.ofBool (EventWord.readIntent e)) := by
  have hkind : EventWord.kind e &&& 0b11#2 = EventWord.kind e := BitVec.and_allOnes
  have hdir : EventWord.data e &&& (0b0000000#7 ++ 0b1#1) = 0b0000000#7 ++ BitVec.ofBool (EventWord.readIntent e) := by
    rw [EventWord.data_eq_append, BitVec.and_append, BitVec.and_zero]
    cases EventWord.readIntent e <;> rfl
  calc e &&& 0x601#11
      = e &&& EventWord.ofFields 0b11#2 false (0b0000000#7 ++ 0b1#1) := rfl
    _ = _ := by rw [EventWord.and_ofFields, hkind, hdir, Bool.and_false]

/-- No row of the opcode map reads another bit. -/
theorem OpcodeRow.matches_and_rowBits {r : OpcodeRow} (hr : r ∈ opcodeTable) (e : EventWord) :
    r.matches (e &&& 0x601#11) = r.matches e := by
  have hmask : ∀ r ∈ opcodeTable, 0x601#11 &&& r.mask = r.mask := by decide
  rw [OpcodeRow.matches, OpcodeRow.matches, BitVec.and_assoc, hmask r hr]

/-- Every word is of one row of the opcode map, its event's: its KIND and its direction choose both. -/
theorem opcodeTable_filter_matches (e : EventWord) :
    (opcodeTable.filter fun r => r.matches e).map OpcodeRow.mnemonic = [(decode e).mnemonic] := by
  have hrows : (opcodeTable.filter fun r => r.matches e) = opcodeTable.filter fun r => r.matches (e &&& 0x601#11) :=
    List.filter_congr fun r hr => (OpcodeRow.matches_and_rowBits hr e).symm
  rw [hrows, EventWord.and_rowBits]
  obtain ⟨hk, hd⟩ | ⟨hk, hr, hd⟩ | ⟨hk, hr, hd⟩ | ⟨hk, hd⟩ | ⟨hk, hd⟩ := decode_cases e
  · rw [hk, hd]
    cases EventWord.readIntent e <;> rfl
  · rw [hk, hr, hd]
    rfl
  · rw [hk, hr, hd]
    rfl
  · rw [hk, hd]
    cases EventWord.readIntent e <;> rfl
  · rw [hk, hd]
    cases EventWord.readIntent e <;> rfl

/-- The decoder of the table's words refuses no number below 2^11 (R74). -/
theorem decodeTableWord_of_lt {w : Nat} (h : w < 2048) : decodeTableWord 16 w = some (decode (BitVec.ofNat 11 w)) := by
  have hw : w % 2 ^ 16 = w := Nat.mod_eq_of_lt (by omega)
  rw [decodeTableWord, hw, decodeNumber, if_pos h]

end Sys2Proof
end

section
/-! The words of a script: of two parts one after the other, and of the lines a transaction stands for. -/

namespace Sys2Proof.Machine

theorem joinWords_assoc (a b c : Except ScriptRefusal (List EventWord)) :
    joinWords (joinWords a b) c = joinWords a (joinWords b c) := by
  cases a <;> cases b <;> cases c <;> simp [joinWords]

/-- The words of a script in two parts. -/
theorem assemble_append (cfg : Config) (l m : List ScriptLine) :
    assemble cfg (l ++ m) = joinWords (assemble cfg l) (assemble cfg m) := by
  induction l with
  | nil => cases h : assemble cfg m <;> simp [assemble, joinWords, h]
  | cons a l ih => rw [List.cons_append, assemble, assemble, ih, joinWords_assoc]

/-- The words of `WR b` line by line are the words of the bytes (R76). -/
theorem assemble_map_wr (cfg : Config) (bytes : List Nat) : assemble cfg (bytes.map .wr) = writeWords bytes := by
  induction bytes with
  | nil => rfl
  | cons b bs ih =>
    rw [List.map_cons, assemble, ih]
    cases hb : inRange8 b <;> cases hbs : bs.all inRange8 <;> simp [ScriptLine.words, writeWords, joinWords, hb, hbs]

/-- The words of `RD` lines. -/
theorem assemble_replicate_rd (cfg : Config) (n : Nat) :
    assemble cfg (List.replicate n .rd) = .ok (List.replicate n 0x700#11) := by
  induction n with
  | zero => rfl
  | succ n ih => simp [List.replicate_succ, assemble, ih, joinWords, ScriptLine.words]

/-- The write transaction is the lines `AM_W; WR r; WR b0; ...` (R80, R81). -/
theorem writeTransaction_eq_assemble (cfg : Config) (bytes : List Nat) :
    writeTransaction cfg bytes = assemble cfg (.amW none :: bytes.map .wr) := by
  rw [assemble, assemble_map_wr]
  rfl

/-- The read transaction of one byte or more is the lines `AM_R; RD; ...` (R83). -/
theorem readTransaction_succ_eq_assemble (cfg : Config) (n : Nat) :
    readTransaction cfg (n + 1) = assemble cfg (.amR none :: List.replicate (n + 1) .rd) := by
  rw [assemble, assemble_replicate_rd]
  cases hm : addressMatchWords cfg 1 none <;> simp [readTransaction, ScriptLine.words, joinWords, hm]

/-- Setting the cursor, then reading, is one script of the lines of both (R82). -/
theorem joinWords_write_read_eq_assemble (cfg : Config) (r n : Nat) :
    joinWords (writeTransaction cfg [r]) (readTransaction cfg (n + 1)) =
      assemble cfg (.amW none :: .wr r :: .amR none :: List.replicate (n + 1) .rd) := by
  rw [writeTransaction_eq_assemble, readTransaction_succ_eq_assemble, ← assemble_append]
  rfl

end Sys2Proof.Machine
end

section
/-! The obligations of 30_encoding.md. -/

namespace Sys2Proof.Settled

open Sys2Proof.Machine

/-- Settles O36: by the cases of decode; words with the same used bits have the same canonical word, so one event. -/
theorem reservedBitsAreIgnored : Obligations.ReservedBitsAreIgnored := by
  refine ⟨opcodeTable_filter_matches, encode_decode, fun e f h => ?_, fun w hw => decodeTableWord_of_lt hw⟩
  have hdecode : decode e = decode f := decode_eq_of_and_usedBits_eq h
  exact ⟨hdecode, fun s rest => congrArg (exec · { s with inputs := rest }) hdecode⟩

/-- Settles O51: each transaction is a script of its lines, and a script in two parts has the words of both. -/
theorem pseudoEventsExpand : Obligations.PseudoEventsExpand := by
  refine ⟨fun cfg r b n bs => ⟨?_, ?_, ?_, ?_, rfl, rfl⟩, fun cfg s => ⟨0x600#11, rdGated s, rfl, rfl, rfl⟩⟩
  · exact writeTransaction_eq_assemble cfg [r]
  · exact writeTransaction_eq_assemble cfg (r :: b :: bs)
  · exact joinWords_write_read_eq_assemble cfg r n
  · exact readTransaction_succ_eq_assemble cfg n

/-- Settles O35: by the cases of decode, each field in plain arithmetic. -/
theorem decodeReadsTheFields : Obligations.DecodeReadsTheFields := by
  intro e
  rw [← EventWord.kind_toNat, ← EventWord.readIntent_toNat, ← EventWord.busAddr_eq_ofNat, ← EventWord.data_eq_ofNat,
    ← EventWord.ack_eq_decide]
  obtain ⟨hk, hd⟩ | ⟨hk, hr, hd⟩ | ⟨hk, hr, hd⟩ | ⟨hk, hd⟩ | ⟨hk, hd⟩ := decode_cases e
  · simp [hk, hd]
  · simp [hk, hr, hd]
  · simp [hk, hr, hd]
  · simp [hk, hd]
  · simp [hk, hd]

end Sys2Proof.Settled
end

section
/-! What one event does in full: the equation of `exec` for each event and phase, the state fields and the outputs it leaves, and
that it reads neither `tx_valid` nor `diag`. -/

namespace Sys2Proof.Machine

open Sys2Proof.Safety

variable {i : Instr} {s t : State}

/-! ## The equations of WR (40_slave_events.md R91) -/

theorem exec_wr_idle (b : Byte) (h : s.phase = .idle) : exec (.wr b) s = .next (wrIdle s) := by
  simp [exec, execWr, h]

theorem exec_wr_awaitingAddressByte (b : Byte) (h : s.phase = .awaitingAddressByte) :
    exec (.wr b) s = .next (wrAddress b s) := by
  simp [exec, execWr, h]

theorem exec_wr_addressReceived (b : Byte) (h : s.phase = .addressReceived) : exec (.wr b) s = .next (wrData b s) := by
  simp [exec, execWr, h]

/-- Every event answers a next state from every state (R115). -/
theorem exec_total (i : Instr) (s : State) : ∃ t, exec i s = .next t := by
  cases i with
  | nop => exact ⟨_, rfl⟩
  | amW a => exact ⟨_, rfl⟩
  | amR a => exact ⟨_, rfl⟩
  | wr b =>
    cases hp : s.phase with
    | idle => exact ⟨_, exec_wr_idle b hp⟩
    | awaitingAddressByte => exact ⟨_, exec_wr_awaitingAddressByte b hp⟩
    | addressReceived => exact ⟨_, exec_wr_addressReceived b hp⟩
  | rd k => cases k <;> exact ⟨_, rfl⟩

/-! ## The cursor as a byte -/

/-- The address byte, clamped (R92). -/
theorem wrap_zext9 (cfg : Config) (b : Byte) : wrap cfg (zext9 b) = if cfg.capacity ≤ b.toNat then 0x00#8 else b := by
  apply BitVec.eq_of_toNat_eq
  rw [wrap_toNat, zext9_toNat]
  split <;> rfl

/-- The cursor after an access: the next index, or 0 at CAPACITY (R93, R96). -/
theorem advance_accessIndex (s : State) :
    advance s.cfg s.accessIndex = BitVec.ofNat 8
      (if indexOf s.cfg s.cursor.toNat + 1 < s.cfg.capacity then indexOf s.cfg s.cursor.toNat + 1 else 0) := by
  rw [← accessIndex_toNat_eq_indexOf]
  calc advance s.cfg s.accessIndex
      = BitVec.ofNat 8 (advance s.cfg s.accessIndex).toNat := by simp
    _ = _ := by rw [advance_toNat]; simp only [← Nat.not_lt, ite_not]

/-- The advance from a cursor in range is the successor modulo CAPACITY (R102). -/
theorem advance_accessIndex_toNat_of_lt (h : s.cursor.toNat < s.cfg.capacity) :
    (advance s.cfg s.accessIndex).toNat = (s.cursor.toNat + 1) % s.cfg.capacity := by
  rw [advance_toNat_eq_indexOf, indexOf_of_lt h, indexOf_succ_of_lt h]

/-! ## The anomalies of RD: READ_NOT_ADDRESSED is bit 2, CURSOR_PREWRAP another (60_exceptions.md R117) -/

@[simp] theorem rdGated_diag (s : State) : (rdGated s).diag = readDiag s := rfl

@[simp] theorem rdFetch_diag (s : State) : (rdFetch s).diag = readDiag s ||| accessDiag s := rfl

theorem readDiag_getLsbD_two (s : State) : (readDiag s).getLsbD 2 = true ↔ s.phase ≠ .addressReceived := by
  by_cases h : s.phase = .addressReceived <;> simp [readDiag_eq, h]

theorem readDiag_getLsbD_of_ne (s : State) {j : Nat} (hj : j ≠ 2) : (readDiag s).getLsbD j = false := by
  rw [readDiag_eq]
  split
  · simp
  · match j, hj with
    | 0, _ | 1, _ | 3, _ => rfl
    | j + 4, _ => exact BitVec.getLsbD_of_ge _ _ (by omega)

theorem accessDiag_getLsbD_two (s : State) : (accessDiag s).getLsbD 2 = false := by
  rw [accessDiag_eq]
  split <;> rfl

/-! ## The byte a step hands over -/

@[simp] theorem State.drive_sent (s : State) (o : Out) : (s.drive o).sent = o.tx := by
  cases h : o.tx <;> simp [State.sent, State.drive, h]

@[simp] theorem Out.quiet_tx : Out.quiet.tx = none := rfl

@[simp] theorem wrData_sent (b : Byte) (s : State) : (wrData b s).sent = none := rfl

/-! ## What an event reads, leaves and stores -/

/-- No event reads `tx_valid` or `diag`. -/
theorem exec_ignores_outputs (i : Instr) (s : State) (v : Bool) (d : Diag) :
    exec i { s with txValid := v, diag := d } = exec i s := by
  cases i with
  | nop => rfl
  | amW a => rfl
  | amR a => rfl
  | wr b => rfl
  | rd k => rfl

/-- The events that the cursor law lets stand anywhere leave phase, cursor and store, send nothing and store nothing (R102). -/
theorem exec_of_leavesCursor (h : exec i s = .next t) (hi : leavesCursor i = true) :
    t.phase = s.phase ∧ t.cursor = s.cursor ∧ t.mem = s.mem ∧ t.sent = none ∧ storeOf i s = [] ∧ writtenByte i = none ∧
      i ≠ .rd true := by
  cases i with
  | nop => cases h; exact ⟨rfl, rfl, rfl, rfl, rfl, rfl, nofun⟩
  | amW a => cases hi
  | amR a => cases h; exact ⟨rfl, rfl, rfl, rfl, rfl, rfl, nofun⟩
  | wr b => cases hi
  | rd k =>
    cases k with
    | false => cases h; exact ⟨rfl, rfl, rfl, rfl, rfl, rfl, nofun⟩
    | true => cases hi

/-- Only WR carries a byte. -/
theorem writtenByte_eq_some {b : Byte} (h : writtenByte i = some b) : i = .wr b := by
  cases i <;> simp_all [writtenByte]

theorem storeOf_wr_addressReceived (b : Byte) (h : s.phase = .addressReceived) :
    storeOf (.wr b) s = [(indexOf s.cfg s.cursor.toNat, b)] := by
  simp [storeOf, h]

theorem storeOf_of_phase_ne (i : Instr) (h : s.phase ≠ .addressReceived) : storeOf i s = [] := by
  unfold storeOf
  split <;> simp_all

/-- An event stores one byte at most. -/
theorem storeOf_reverse (i : Instr) (s : State) : (storeOf i s).reverse = storeOf i s := by
  unfold storeOf
  split <;> rfl

/-- Every index holds after an event what the event stored there, or else what stood there (20_memory.md R52). -/
theorem exec_byteAt (h : exec i s = .next t) (j : Nat) : t.byteAt j = ((storeOf i s).lookup j).or (s.byteAt j) := by
  obtain ⟨rfl, rfl⟩ | ⟨_, rfl, rfl⟩ | ⟨_, rfl, rfl⟩ | ⟨b, rfl, hp, rfl⟩ | ⟨b, rfl, hp, rfl⟩ | ⟨b, rfl, hp, rfl⟩ |
    ⟨rfl, rfl⟩ | ⟨rfl, rfl⟩ := exec_cases h
  · rfl
  · rfl
  · rfl
  · rw [storeOf_of_phase_ne _ (by simp [hp])]; rfl
  · rw [storeOf_of_phase_ne _ (by simp [hp])]; rfl
  · rw [wrData_byteAt, storeOf_wr_addressReceived b hp]
    by_cases hj : j = indexOf s.cfg s.cursor.toNat
    · simp [List.lookup, hj]
    · simp [List.lookup, hj, beq_eq_false_iff_ne.mpr hj]
  · rfl
  · rfl

end Sys2Proof.Machine
end

section
/-! Runs of events: every run answers, what a run stores is what the store then holds, and the cursor law (40_slave_events.md
section 7). -/

namespace Sys2Proof.Machine

open Sys2Proof.Safety

/-! ## Every run answers (R101) -/

theorem runEvents_total (es : List EventWord) (s : State) : ∃ r, runEvents es s = .next r := by
  induction es generalizing s with
  | nil => exact ⟨_, rfl⟩
  | cons e es ih =>
    obtain ⟨t, ht⟩ := exec_total (decode e) s
    obtain ⟨r, hr⟩ := ih t
    exact ⟨_, runEvents_cons ht hr⟩

/-- A run goes on after an event given by itself. -/
theorem runEvents_encode_cons {i : Instr} {es : List EventWord} {s t : State} {r : RunResult}
    (h : exec i s = .next t) (hr : runEvents es t = .next r) :
    runEvents (encode i :: es) s = .next ⟨r.final, t.sent.toList ++ r.sent, t.diag :: r.diags⟩ :=
  runEvents_cons (by rwa [decode_encode]) hr

theorem runEvents_diags_length {es : List EventWord} {s : State} {r : RunResult} (h : runEvents es s = .next r) :
    r.diags.length = es.length := by
  induction es generalizing s r with
  | nil => cases h; rfl
  | cons e es ih =>
    obtain ⟨t, r', -, hr, rfl⟩ := runEvents_cons_inv h
    simp [ih hr]

/-- No run writes the configuration (R31). -/
theorem runEvents_cfg {es : List EventWord} {s : State} {r : RunResult} (h : runEvents es s = .next r) :
    r.final.cfg = s.cfg := by
  induction es generalizing s r with
  | nil => cases h; rfl
  | cons e es ih =>
    obtain ⟨t, r', ht, hr, rfl⟩ := runEvents_cons_inv h
    exact (ih hr).trans (exec_cfg ht)

/-- No run returns to Idle. -/
theorem runEvents_phase_ne_idle {es : List EventWord} {s : State} {r : RunResult} (h : runEvents es s = .next r)
    (hs : s.phase ≠ .idle) : r.final.phase ≠ .idle := by
  induction es generalizing s r with
  | nil => cases h; exact hs
  | cons e es ih =>
    obtain ⟨t, r', ht, hr, rfl⟩ := runEvents_cons_inv h
    refine ih (r := r') hr fun hidle => hs ?_
    rw [exec_phase ht] at hidle
    exact (phaseAfter_eq_idle hidle).1

/-! ## The store after a run (R103) -/

/-- Every index holds after a run the last byte that the run stored there, or else what stood there. -/
theorem runEvents_byteAt {es : List EventWord} {s : State} {r : RunResult} (h : runEvents es s = .next r) (j : Nat) :
    r.final.byteAt j = ((storesOf es s).reverse.lookup j).or (s.byteAt j) := by
  induction es generalizing s r with
  | nil => cases h; rfl
  | cons e es ih =>
    obtain ⟨t, r', ht, hr, rfl⟩ := runEvents_cons_inv h
    rw [ih hr, exec_byteAt ht, storesOf_cons ht, List.reverse_append, lookup_append, storeOf_reverse, Option.or_assoc]

/-- Setting the cursor: an AM_W and an address byte, from any state (R80). -/
theorem runEvents_setCursor (s : State) (a : BusAddr) (c : Byte) :
    ∃ r, runEvents [encode (.amW a), encode (.wr c)] s = .next r ∧ r.sent = [] ∧ r.final.cfg = s.cfg ∧
      r.final.mem = s.mem ∧ r.final.phase = .addressReceived ∧ r.final.cursor.toNat = indexOf s.cfg c.toNat :=
  ⟨_, runEvents_encode_cons rfl (runEvents_encode_cons (exec_wr_awaitingAddressByte c rfl) rfl), rfl, rfl, rfl, rfl,
    wrap_toNat_eq_indexOf s.cfg c⟩

/-- A read transaction of one byte sends the byte at the cursor (R83). -/
theorem runEvents_readByte {s : State} (a : BusAddr) {v : Byte}
    (hv : s.byteAt (indexOf s.cfg s.cursor.toNat) = some v) :
    ∃ r, runEvents [encode (.amR a), encode (.rd true)] s = .next r ∧ r.sent = [v] := by
  have hsent : (rdFetch ((s.setLaddr a).drive Out.quiet)).sent = some v := (rdFetch_sent _).trans hv
  exact ⟨_, runEvents_encode_cons rfl (runEvents_encode_cons rfl (runEvents_nil _)), by simp [hsent]⟩

/-! ## A run and the run without its NOPs (R87) -/

/-- A run from a state with any `tx_valid` and `diag` and the run without its NOPs from that state go alike: no event reads the two
fields, and a NOP writes nothing else. -/
theorem runEvents_filter_not_isNop (es : List EventWord) (s : State) (v : Bool) (d : Diag) :
    ∃ r r' : RunResult,
      runEvents es { s with txValid := v, diag := d } = .next r ∧ runEvents (es.filter fun e => !isNop e) s = .next r' ∧
      r.sent = r'.sent ∧
      r'.diags = ((es.zip r.diags).filter fun p => !isNop p.1).map Prod.snd ∧
      (∀ p ∈ es.zip r.diags, isNop p.1 = true → p.2 = 0b0000#4) ∧
      r.final = { r'.final with txValid := r.final.txValid, diag := r.final.diag } := by
  induction es generalizing s v d with
  | nil => exact ⟨_, _, rfl, rfl, rfl, rfl, nofun, rfl⟩
  | cons e es ih =>
    by_cases he : decode e = .nop
    · have hnop : isNop e = true := by simp [isNop, he]
      have hexec : exec (decode e) { s with txValid := v, diag := d } = .next { s with txValid := false, diag := 0b0000#4 } := by
        rw [he]; rfl
      obtain ⟨r, r', hr, hr', hsent, hdiags, hzero, hfinal⟩ := ih s false 0b0000#4
      refine ⟨_, r', runEvents_cons hexec hr, by simpa [hnop] using hr', hsent, by simpa [hnop] using hdiags, ?_, hfinal⟩
      exact List.forall_mem_cons.mpr ⟨fun _ => rfl, hzero⟩
    · have hnop : isNop e = false := by simp [isNop, he]
      obtain ⟨t, ht⟩ := exec_total (decode e) s
      obtain ⟨r, r', hr, hr', hsent, hdiags, hzero, hfinal⟩ := ih t t.txValid t.diag
      have hrun := runEvents_cons ((exec_ignores_outputs _ s v d).trans ht) hr
      have hrun' := runEvents_cons ht hr'
      refine ⟨_, ⟨r'.final, t.sent.toList ++ r'.sent, t.diag :: r'.diags⟩, hrun, by simpa [hnop] using hrun', ?_, ?_, ?_,
        hfinal⟩
      · rw [hsent]
      · simp [hnop, hdiags]
      · exact List.forall_mem_cons.mpr ⟨fun h => by simp [hnop] at h, hzero⟩

/-! ## The cursor law (R102) -/

/-- The stores of bytes one after the other, from index `c` on, modulo `n`. -/
def cyclicStores (n c : Nat) (bytes : List Byte) : List (Nat × Byte) :=
  bytes.zipIdx.map fun p => ((c + p.2) % n, p.1)

theorem cyclicStores_cons (n c : Nat) (b : Byte) (bytes : List Byte) :
    cyclicStores n c (b :: bytes) = (c % n, b) :: cyclicStores n ((c + 1) % n) bytes := by
  simp [cyclicStores, List.zipIdx_succ, Function.comp_def, Nat.add_assoc, Nat.add_comm 1]

theorem cyclicStores_concat (n c : Nat) (bytes : List Byte) (b : Byte) :
    cyclicStores n c (bytes ++ [b]) = cyclicStores n c bytes ++ [((c + bytes.length) % n, b)] := by
  simp [cyclicStores, List.zipIdx_append]

/-- Two offsets less than `n` apart are two indices modulo `n`. -/
theorem add_mod_ne_of_lt {n c i k : Nat} (hik : i < k) (hk : k < i + n) : (c + i) % n ≠ (c + k) % n := by
  intro h
  have hdvd : n ∣ (c + k) - (c + i) := (Nat.modEq_iff_dvd' (by omega)).mp h
  have := Nat.le_of_dvd (by omega) hdvd
  omega

/-- The last `n` bytes are the last ones stored at their indices. -/
theorem lookup_reverse_cyclicStores {n c i : Nat} {bytes : List Byte} {b : Byte} (hb : bytes[i]? = some b)
    (hi : bytes.length ≤ i + n) : (cyclicStores n c bytes).reverse.lookup ((c + i) % n) = some b := by
  induction bytes using List.reverseRecOn with
  | nil => simp at hb
  | append_singleton bytes b' ih =>
    rw [List.length_append, List.length_singleton] at hi
    rw [cyclicStores_concat, List.reverse_append, List.reverse_singleton, List.singleton_append]
    obtain hlt | heq | hgt := Nat.lt_trichotomy i bytes.length
    · have hne : ((c + i) % n == (c + bytes.length) % n) = false := beq_eq_false_iff_ne.mpr (add_mod_ne_of_lt hlt (by omega))
      rw [List.getElem?_append_left hlt] at hb
      simpa [List.lookup, hne] using ih hb (by omega)
    · subst heq
      simpa [List.lookup] using hb
    · rw [List.getElem?_eq_none (by simp; omega)] at hb
      cases hb

/-- At an index that no byte goes to, nothing is stored. -/
theorem lookup_reverse_cyclicStores_eq_none {n c j : Nat} {bytes : List Byte}
    (hj : ∀ i, i < bytes.length → j ≠ (c + i) % n) : (cyclicStores n c bytes).reverse.lookup j = none := by
  apply lookup_eq_none_of_forall_ne
  intro p hp
  obtain ⟨⟨b, i⟩, hq, rfl⟩ := List.mem_map.mp (List.mem_reverse.mp hp)
  exact (hj i (List.snd_lt_of_mem_zipIdx hq)).symm

/-- Data bytes move the cursor by one each and go to the indices after one another, modulo CAPACITY. -/
theorem runEvents_of_writes {es : List EventWord} {s : State} (hp : s.phase = .addressReceived)
    (hc : s.cursor.toNat < s.cfg.capacity)
    (hes : ∀ e ∈ es, (writtenByte (decode e)).isSome = true ∨ leavesCursor (decode e) = true) :
    ∃ r, runEvents es s = .next r ∧ r.final.phase = .addressReceived ∧
      r.final.cursor.toNat =
        (s.cursor.toNat + (es.filterMap fun e => writtenByte (decode e)).length) % s.cfg.capacity ∧
      storesOf es s = cyclicStores s.cfg.capacity s.cursor.toNat (es.filterMap fun e => writtenByte (decode e)) := by
  induction es generalizing s with
  | nil => exact ⟨_, rfl, hp, (Nat.mod_eq_of_lt hc).symm, rfl⟩
  | cons e es ih =>
    obtain ⟨he, hes⟩ := List.forall_mem_cons.mp hes
    obtain ⟨t, ht⟩ := exec_total (decode e) s
    have hcfg : t.cfg = s.cfg := exec_cfg ht
    obtain he | he := he
    · obtain ⟨b, hb⟩ := Option.isSome_iff_exists.mp he
      have hwr := writtenByte_eq_some hb
      have htp : t.phase = .addressReceived := by rw [exec_phase ht, hwr, hp]; rfl
      have htc : t.cursor.toNat = (s.cursor.toNat + 1) % s.cfg.capacity := by
        rw [hwr, exec_wr_addressReceived b hp] at ht
        cases ht
        exact advance_accessIndex_toNat_of_lt hc
      obtain ⟨r, hr, hrp, hrc, hrs⟩ := ih htp (exec_cursor_lt ht hc) hes
      refine ⟨_, runEvents_cons ht hr, hrp, ?_, ?_⟩
      · simp [hrc, hcfg, htc, hb, Nat.add_assoc, Nat.add_comm 1]
      · rw [storesOf_cons ht, hwr, storeOf_wr_addressReceived b hp, indexOf_of_lt hc, hrs, hcfg, htc]
        simp [hb, cyclicStores_cons, Nat.mod_eq_of_lt hc]
    · obtain ⟨htp, htc, -, -, hstore, hnone, -⟩ := exec_of_leavesCursor ht he
      obtain ⟨r, hr, hrp, hrc, hrs⟩ := ih (htp.trans hp) (exec_cursor_lt ht hc) hes
      rw [htc, hcfg] at hrc hrs
      refine ⟨_, runEvents_cons ht hr, hrp, ?_, ?_⟩
      · simp [hrc, hnone]
      · simp [storesOf_cons ht, hstore, hrs, hnone]

/-- Open reads move the cursor by one each and send the bytes at the indices after one another, modulo CAPACITY. -/
theorem runEvents_of_openReads {es : List EventWord} {s : State} (hc : s.cursor.toNat < s.cfg.capacity)
    (hes : ∀ e ∈ es, decode e = .rd true ∨ leavesCursor (decode e) = true) :
    ∃ r, runEvents es s = .next r ∧
      r.final.cursor.toNat =
        (s.cursor.toNat + (es.filter fun e => decide (decode e = .rd true)).length) % s.cfg.capacity ∧
      r.sent.map some = (List.range (es.filter fun e => decide (decode e = .rd true)).length).map fun i =>
        s.byteAt ((s.cursor.toNat + i) % s.cfg.capacity) := by
  induction es generalizing s with
  | nil => exact ⟨_, rfl, (Nat.mod_eq_of_lt hc).symm, rfl⟩
  | cons e es ih =>
    obtain ⟨he, hes⟩ := List.forall_mem_cons.mp hes
    obtain ⟨t, ht⟩ := exec_total (decode e) s
    have hcfg : t.cfg = s.cfg := exec_cfg ht
    obtain ⟨r, hr, hrc, hrs⟩ := ih (exec_cursor_lt ht hc) hes
    refine ⟨_, runEvents_cons ht hr, ?_⟩
    obtain he | he := he
    · rw [he] at ht
      cases ht
      have htc : (rdFetch s).cursor.toNat = (s.cursor.toNat + 1) % s.cfg.capacity := advance_accessIndex_toNat_of_lt hc
      have hsent : (rdFetch s).sent.toList.map some = [s.byteAt s.cursor.toNat] := by
        rw [← State.accessIndex_of_lt hc, State.byteAt_accessIndex]
        rfl
      have hbyte : ∀ j, (rdFetch s).byteAt j = s.byteAt j := State.byteAt_congr rfl rfl
      rw [hcfg, htc] at hrc hrs
      simp only [hbyte] at hrs
      constructor
      · simp [hrc, he, Nat.add_assoc, Nat.add_comm 1]
      · simp [hsent, hrs, he, List.range_succ_eq_map, Function.comp_def, Nat.mod_eq_of_lt hc, Nat.add_assoc,
          Nat.add_comm 1]
    · obtain ⟨-, htc, hmem, hsent, -, -, hne⟩ := exec_of_leavesCursor ht he
      have hbyte : ∀ j, t.byteAt j = s.byteAt j := State.byteAt_congr hcfg hmem
      rw [hcfg, htc] at hrc hrs
      simp only [hbyte] at hrs
      simp [hsent, hrc, hrs, hne]

end Sys2Proof.Machine
end

section
/-! The obligations of 40_slave_events.md. -/

namespace Sys2Proof.Settled

open Sys2Proof.Machine Sys2Proof.Safety

/-- Settles O9: AM_W reads no phase and no address. -/
theorem writeIntentMatchAwaitsAnAddressByte : Obligations.WriteIntentMatchAwaitsAnAddressByte := fun _ _ => rfl

/-- Settles O10: AM_R writes the latched address and the outputs alone. -/
theorem readIntentMatchOnlyLatches : Obligations.ReadIntentMatchOnlyLatches := fun _ _ => rfl

/-- Settles O11: in Idle the byte is discarded. -/
theorem writeInIdleIsIgnored : Obligations.WriteInIdleIsIgnored := fun _ b hp => exec_wr_idle b hp

/-- Settles O12: the wraparound routine clamps the address byte where ADDR_CLAMPED is raised. -/
theorem addressByteSetsTheCursorClamped : Obligations.AddressByteSetsTheCursorClamped := by
  intro s b hp
  rw [exec_wr_awaitingAddressByte b hp, ← wrap_zext9, ← addressDiag_eq]
  rfl

/-- Settles O13: the store after the data byte changes at the index of the access alone, and the cursor moves past that index. -/
theorem dataByteIsStoredAtTheCursor : Obligations.DataByteIsStoredAtTheCursor := by
  intro s b hp
  refine ⟨(wrData b s).mem, ?_, wrData_byteAt s b⟩
  rw [exec_wr_addressReceived b hp, ← advance_accessIndex, ← accessDiag_eq]
  rfl

/-- Settles O14: the open read sends the byte fetched at the index of the access and moves past it; the gated one reports alone. -/
theorem readSendsTheByteAtTheCursor : Obligations.ReadSendsTheByteAtTheCursor := by
  intro s
  rw [← advance_accessIndex, ← accessDiag_eq, ← readDiag_eq, ← accessIndex_toNat_eq_indexOf]
  exact ⟨⟨s.fetched, s.byteAt_accessIndex, rfl⟩, rfl⟩

/-- Settles O15: the gated read writes `tx_valid` and `diag` alone, the latter by the phase. -/
theorem gatedReadChangesNoState : Obligations.GatedReadChangesNoState := by
  intro s
  refine ⟨rdGated s, rfl, rfl, rfl, ?_⟩
  rw [rdGated_diag, readDiag_eq]
  by_cases hp : s.phase = .addressReceived <;> simp [hp]

/-- Settles O38: the runs of data bytes and of open reads, and what the last stores leave in the store. -/
theorem cursorLaw : Obligations.CursorLaw := by
  refine ⟨fun es s hp hc hes => ?_, fun es s _ hc hes => runEvents_of_openReads hc hes⟩
  obtain ⟨r, hr, hrp, hrc, hrs⟩ := runEvents_of_writes hp hc hes
  refine ⟨r, hr, hrp, hrc, hrs, fun i b hb hi => ?_, fun j hj => ?_⟩
  · rw [runEvents_byteAt hr, hrs, lookup_reverse_cyclicStores hb hi, Option.some_or]
  · rw [runEvents_byteAt hr, hrs, lookup_reverse_cyclicStores_eq_none hj, Option.none_or]

/-- Settles O39: setting the cursor to the same index before the write and before the read; and the store after any run. -/
theorem readReturnsTheLastByteStored : Obligations.ReadReturnsTheLastByteStored := by
  constructor
  · intro s a1 a2 a3 c v hc
    obtain ⟨r1, hr1, hsent1, hcfg1, -, hp1, hc1⟩ := runEvents_setCursor s a1 c
    obtain ⟨r2, hr2, hsent2, hcfg2, hmem2, -, hc2⟩ := runEvents_setCursor (wrData v r1.final) a2 c
    have hcfg : (wrData v r1.final).cfg = s.cfg := hcfg1
    have hindex1 : indexOf r1.final.cfg r1.final.cursor.toNat = c.toNat := by
      rw [hcfg1, hc1, indexOf_of_lt hc, indexOf_of_lt hc]
    have hindex2 : indexOf r2.final.cfg r2.final.cursor.toNat = c.toNat := by
      rw [hcfg2, hc2, hcfg, indexOf_of_lt hc, indexOf_of_lt hc]
    have hbyte : r2.final.byteAt (indexOf r2.final.cfg r2.final.cursor.toNat) = some v := by
      rw [hindex2, State.byteAt_congr hcfg2 hmem2, wrData_byteAt, hindex1, if_pos rfl]
    obtain ⟨r3, hr3, hsent3⟩ := runEvents_readByte a3 hbyte
    refine ⟨_, runEvents_append hr1 (runEvents_encode_cons (exec_wr_addressReceived v hp1) (runEvents_append hr2 hr3)), ?_⟩
    simp [hsent1, hsent2, hsent3]
  · intro es s
    obtain ⟨r, hr⟩ := runEvents_total es s
    have hsent : some (rdFetch r.final).txData = r.final.byteAt (indexOf r.final.cfg r.final.cursor.toNat) :=
      rdFetch_sent r.final
    rw [runEvents_cfg hr, runEvents_byteAt hr] at hsent
    exact ⟨r, hr, runEvents_byteAt hr, _, rfl, hsent⟩

/-- Settles O40: the run and the run without its NOPs start in one state. -/
theorem nopsBetweenEventsChangeNothing : Obligations.NopsBetweenEventsChangeNothing := by
  refine ⟨fun _ => rfl, fun es s => ?_⟩
  obtain ⟨r, r', hr, hr', hsent, hdiags, hzero, hfinal⟩ := runEvents_filter_not_isNop es s s.txValid s.diag
  exact ⟨r, r', hr, hr', hsent, runEvents_diags_length hr, hdiags, hzero, hfinal⟩

/-- Settles O41: only READ_NOT_ADDRESSED reads the phase, and it is bit 2. -/
theorem readDoesNotDependOnThePhase : Obligations.ReadDoesNotDependOnThePhase := by
  intro k s p
  cases k with
  | false =>
    refine ⟨rdGated s, rdGated { s with phase := p }, rfl, rfl, rfl, rfl, fun j hj => ?_, readDiag_getLsbD_two _⟩
    exact (readDiag_getLsbD_of_ne _ hj).trans (readDiag_getLsbD_of_ne s hj).symm
  | true =>
    have haccess : accessDiag { s with phase := p } = accessDiag s := rfl
    refine ⟨rdFetch s, rdFetch { s with phase := p }, rfl, rfl, rfl, rfl, fun j hj => ?_, ?_⟩
    · simp only [rdFetch_diag, haccess, BitVec.getLsbD_or, readDiag_getLsbD_of_ne _ hj]
    · simp only [rdFetch_diag, BitVec.getLsbD_or, accessDiag_getLsbD_two, Bool.or_false, readDiag_getLsbD_two]

/-- Settles O45: every event answers, and no event enters Idle. -/
theorem noRunEndsAndNoneReturnsToIdle : Obligations.NoRunEndsAndNoneReturnsToIdle := by
  constructor
  · intro es s
    obtain ⟨r, hr⟩ := runEvents_total es s
    exact ⟨r, hr, runEvents_diags_length hr⟩
  · intro es s a r h
    obtain ⟨t, r', ht, hr, rfl⟩ := runEvents_cons_inv h
    rw [decode_encode] at ht
    cases ht
    exact runEvents_phase_ne_idle (r := r') hr (by simp)

/-- Settles O46: cell by cell. -/
theorem transitionTable : Obligations.TransitionTable := by
  intro i s
  cases i with
  | nop =>
    refine ⟨_, rfl, ?_⟩
    cases hp : s.phase <;> exact ⟨⟨hp, rfl⟩, rfl, fun _ => rfl, rfl, rfl⟩
  | amW a =>
    refine ⟨_, rfl, ?_⟩
    cases s.phase <;> exact ⟨⟨rfl, rfl⟩, rfl, fun _ => rfl, rfl, rfl⟩
  | amR a =>
    refine ⟨_, rfl, ?_⟩
    cases hp : s.phase <;> exact ⟨⟨hp, rfl⟩, rfl, fun _ => rfl, rfl, rfl⟩
  | wr b =>
    cases hp : s.phase with
    | idle => exact ⟨_, exec_wr_idle b hp, ⟨hp, rfl⟩, rfl, fun _ => rfl, rfl, rfl⟩
    | awaitingAddressByte =>
      exact ⟨_, exec_wr_awaitingAddressByte b hp, ⟨rfl, rfl⟩, wrap_toNat_eq_indexOf s.cfg b, fun _ => rfl, rfl,
        addressDiag_eq s.cfg b⟩
    | addressReceived =>
      exact ⟨_, exec_wr_addressReceived b hp, ⟨hp, rfl⟩, advance_toNat_eq_indexOf s, wrData_byteAt s b, rfl, accessDiag_eq s⟩
  | rd k =>
    cases k with
    | false =>
      refine ⟨rdGated s, rfl, ?_⟩
      cases hp : s.phase <;> exact ⟨⟨hp, rfl⟩, rfl, fun _ => rfl, rfl, by simp [readDiag_eq, hp]⟩
    | true =>
      refine ⟨rdFetch s, rfl, ?_⟩
      by_cases hc : s.cfg.capacity ≤ s.cursor.toNat <;> cases hp : s.phase <;>
        exact ⟨⟨hp, rfl⟩, advance_toNat_eq_indexOf s, fun _ => rfl, rdFetch_sent s,
          by simp [readDiag_eq, accessDiag_eq, hp, hc]⟩

end Sys2Proof.Settled
end

section
/-! The diagnostic bits of one event (60_exceptions.md R117), each said once from `exec_cases`; that every clock edge answers (R115);
and that no run reads the bits (R122). -/

namespace Sys2Proof.Machine

open Sys2Proof.Safety

variable {i : Instr} {s t : State}

/-! ## Every clock edge answers (R115) -/

theorem step_total (s : State) : ∃ t, step s = .next t := by
  cases hr : s.input.rst with
  | true => exact ⟨takeReset s.popInput, by simp [step, hr]⟩
  | false =>
    obtain ⟨t, ht⟩ := exec_total (decode s.input.ev) s.popInput
    exact ⟨t, by simpa [step, hr] using ht⟩

/-! ## The anomalies an event reports -/

/-- The anomalies an event reports from a state (the column `diag` of 40_slave_events.md R100). -/
def reported : Instr → State → Diag
  | .nop, _ => 0b0000#4
  | .amW _, _ => 0b0000#4
  | .amR _, _ => 0b0000#4
  | .wr b, s =>
    match s.phase with
    | .idle => diagDataWhileIdle
    | .awaitingAddressByte => addressDiag s.cfg b
    | .addressReceived => accessDiag s
  | .rd false, s => readDiag s
  | .rd true, s => readDiag s ||| accessDiag s

/-- Every event overwrites `diag` with the anomalies it reports (R34, R117). -/
theorem exec_diag (h : exec i s = .next t) : t.diag = reported i s := by
  obtain ⟨rfl, rfl⟩ | ⟨_, rfl, rfl⟩ | ⟨_, rfl, rfl⟩ | ⟨_, rfl, hp, rfl⟩ | ⟨_, rfl, hp, rfl⟩ | ⟨_, rfl, hp, rfl⟩ |
    ⟨rfl, rfl⟩ | ⟨rfl, rfl⟩ := exec_cases h
  · rfl
  · rfl
  · rfl
  · simp [reported, hp, wrIdle]
  · simp [reported, hp, wrAddress]
  · simp [reported, hp, wrData]
  · rfl
  · rfl

/-! ## The bits of each anomaly -/

theorem addressDiag_getLsbD (cfg : Config) (b : Byte) (j : Nat) :
    (addressDiag cfg b).getLsbD j = true ↔ j = 0 ∧ cfg.capacity ≤ b.toNat := by
  rw [addressDiag_eq]
  split <;> simp [*]

theorem accessDiag_getLsbD (s : State) (j : Nat) :
    (accessDiag s).getLsbD j = true ↔ j = 3 ∧ s.cfg.capacity ≤ s.cursor.toNat := by
  rw [accessDiag_eq]
  split
  · match j with
    | 0 | 1 | 2 | 3 => simp [*]
    | j + 4 => simp
  · simp [*]

theorem readDiag_getLsbD (s : State) (j : Nat) :
    (readDiag s).getLsbD j = true ↔ j = 2 ∧ s.phase ≠ .addressReceived := by
  by_cases hj : j = 2
  · rw [hj, readDiag_getLsbD_two, eq_self_iff_true, true_and]
  · simp [readDiag_getLsbD_of_ne s hj, hj]

theorem diagDataWhileIdle_getLsbD (j : Nat) : diagDataWhileIdle.getLsbD j = true ↔ j = 1 := by
  match j with
  | 0 | 1 | 2 | 3 => decide
  | j + 4 => simp

/-- Which event reports the anomaly of a bit, and from which state (R117). -/
theorem reported_getLsbD (i : Instr) (s : State) (j : Nat) :
    (reported i s).getLsbD j = true ↔
      (j = 0 ∧ ∃ b, i = .wr b ∧ s.phase = .awaitingAddressByte ∧ s.cfg.capacity ≤ b.toNat) ∨
      (j = 1 ∧ ∃ b, i = .wr b ∧ s.phase = .idle) ∨
      (j = 2 ∧ ∃ k, i = .rd k ∧ s.phase ≠ .addressReceived) ∨
      (j = 3 ∧ s.cfg.capacity ≤ s.cursor.toNat ∧ (i = .rd true ∨ ∃ b, i = .wr b ∧ s.phase = .addressReceived)) := by
  cases i with
  | nop => simp [reported]
  | amW a => simp [reported]
  | amR a => simp [reported]
  | wr b =>
    cases hp : s.phase with
    | idle => simp [reported, hp, diagDataWhileIdle_getLsbD]
    | awaitingAddressByte => simp [reported, hp, addressDiag_getLsbD]
    | addressReceived => simp [reported, hp, accessDiag_getLsbD]
  | rd k =>
    cases k with
    | false => simp [reported, readDiag_getLsbD]
    | true => simp [reported, readDiag_getLsbD, accessDiag_getLsbD]

/-- An event reports no anomaly, one, or READ_NOT_ADDRESSED with CURSOR_PREWRAP (R124). -/
theorem reported_mem (i : Instr) (s : State) :
    reported i s ∈ [0b0000#4, 0b0001#4, 0b0010#4, 0b0100#4, 0b1000#4, 0b1100#4] := by
  have haccess : accessDiag s = 0b0000#4 ∨ accessDiag s = 0b1000#4 := by
    rw [accessDiag_eq]; split <;> simp
  have hread : readDiag s = 0b0000#4 ∨ readDiag s = 0b0100#4 := by
    rw [readDiag_eq]; split <;> simp
  cases i with
  | nop => simp [reported]
  | amW a => simp [reported]
  | amR a => simp [reported]
  | wr b =>
    cases hp : s.phase with
    | idle => simp [reported, hp, diagDataWhileIdle]
    | awaitingAddressByte =>
      simp only [reported, hp, addressDiag_eq]
      split <;> simp
    | addressReceived => obtain h | h := haccess <;> simp [reported, hp, h]
  | rd k =>
    cases k with
    | false => obtain h | h := hread <;> simp [reported, h]
    | true => obtain hr | hr := hread <;> obtain ha | ha := haccess <;> simp [reported, hr, ha]

/-- No event reports CURSOR_PREWRAP from a cursor in range (R121). -/
theorem exec_diag_getLsbD_three_of_lt (h : exec i s = .next t) (hlt : s.cursor.toNat < s.cfg.capacity) :
    t.diag.getLsbD 3 = false := by
  rw [exec_diag h, ← Bool.not_eq_true, reported_getLsbD]
  have hin : ¬ s.cfg.capacity ≤ s.cursor.toNat := Nat.not_le.mpr hlt
  simp [hin]

/-! ## The rollover (R123) -/

/-- Past the last index in range the cursor rolls over to 0. -/
theorem advance_accessIndex_of_succ_eq (hc : s.cursor.toNat + 1 = s.cfg.capacity) :
    advance s.cfg s.accessIndex = 0x00#8 := by
  apply BitVec.eq_of_toNat_eq
  rw [advance_accessIndex_toNat_of_lt (by omega), hc, Nat.mod_self]
  rfl

/-- An access in AddressReceived moves the cursor past its index (R93, R96). -/
theorem exec_cursor_of_access (h : exec i s = .next t) (hp : s.phase = .addressReceived)
    (hi : i = .rd true ∨ ∃ b, i = .wr b) : t.cursor = advance s.cfg s.accessIndex := by
  obtain rfl | ⟨b, rfl⟩ := hi
  · cases h; rfl
  · rw [exec_wr_addressReceived b hp] at h
    cases h; rfl

/-! ## Runs and the diagnostic bits (R122) -/

/-- No event reads `diag`. -/
theorem exec_setDiag (i : Instr) (s : State) (d : Diag) : exec i { s with diag := d } = exec i s :=
  exec_ignores_outputs i s s.txValid d

/-- A run of one event or more is the same whatever `diag` was before it. -/
theorem runEvents_cons_setDiag (e : EventWord) (es : List EventWord) (s : State) (d : Diag) :
    runEvents (e :: es) { s with diag := d } = runEvents (e :: es) s := by
  obtain ⟨t, ht⟩ := exec_total (decode e) s
  obtain ⟨r, hr⟩ := runEvents_total es t
  rw [runEvents_cons ht hr, runEvents_cons ((exec_setDiag _ s d).trans ht) hr]

end Sys2Proof.Machine
end

section
/-! The obligations of 60_exceptions.md. -/

namespace Sys2Proof.Settled

open Sys2Proof.Machine Sys2Proof.Safety

/-- Settles O7: a reset and every event answer, and `Fault` has no constructor. -/
theorem everyStepAnswersANextState : Obligations.EveryStepAnswersANextState :=
  ⟨step_total, exec_total, nofun⟩

/-- Settles O23: `diag` is what the event reports, read bit by bit. -/
theorem eachDiagnosticBitExactlyByItsCause : Obligations.EachDiagnosticBitExactlyByItsCause := by
  intro i s t h
  simp only [exec_diag h, reported_getLsbD]
  simp

/-- Settles O24: of the reported values only the pair has both bits, and an event with the causes of both is an open read. -/
theorem onlyOnePairOfAnomaliesInOneStep : Obligations.OnlyOnePairOfAnomaliesInOneStep := by
  intro i s t h
  have hmem := reported_mem i s
  rw [← exec_diag h] at hmem
  have hpair : ∀ d ∈ [0b0000#4, 0b0001#4, 0b0010#4, 0b0100#4, 0b1000#4, 0b1100#4],
      d = 0b1100#4 ↔ d.getLsbD 2 = true ∧ d.getLsbD 3 = true := by decide
  obtain ⟨-, -, hread, haccess⟩ := eachDiagnosticBitExactlyByItsCause i s t h
  refine ⟨hmem, ?_⟩
  rw [hpair _ hmem, hread, haccess]
  constructor
  · rintro ⟨⟨k, rfl, hp⟩, hc, hi | ⟨b, hi, -⟩⟩
    · exact ⟨hi, hp, hc⟩
    · cases hi
  · rintro ⟨rfl, hp, hc⟩
    exact ⟨⟨true, rfl, hp⟩, hc, .inl rfl⟩

/-- Settles O25: no event named has the cause of an anomaly, and past the last index the cursor is 0. -/
theorem normalEventsRaiseNoAnomaly : Obligations.NormalEventsRaiseNoAnomaly := by
  intro i s hi
  obtain ⟨t, ht⟩ := exec_total i s
  refine ⟨t, ht, ?_, fun hp hc ha => ?_⟩
  · rw [exec_diag ht]
    obtain rfl | ⟨a, rfl⟩ | ⟨a, rfl⟩ | ⟨hp, rfl⟩ | ⟨hp, hc, hacc⟩ := hi
    · rfl
    · rfl
    · rfl
    · simp [reported, readDiag_eq, hp]
    · have hquiet : accessDiag s = 0b0000#4 := by rw [accessDiag_eq, if_neg (by omega)]
      obtain rfl | ⟨b, rfl⟩ := hacc
      · simp [reported, readDiag_eq, hp, hquiet]
      · simp [reported, hp, hquiet]
  · rw [exec_cursor_of_access ht hp ha, advance_accessIndex_of_succ_eq hc]

/-- Settles O26: the empty run leaves `diag` as it was, and every other run is the same run. -/
theorem diagnosticsNeverChangeBehaviour : Obligations.DiagnosticsNeverChangeBehaviour := by
  intro es s d
  cases es with
  | nil => exact ⟨_, _, rfl, rfl, rfl, rfl, rfl, nofun⟩
  | cons e es =>
    obtain ⟨r, hr⟩ := runEvents_total (e :: es) s
    exact ⟨r, r, hr, (runEvents_cons_setDiag e es s d).trans hr, rfl, rfl, rfl, fun _ => rfl⟩

/-- Settles O32: by induction over the reachable states, whose cursor is in range, so that no event reports bit 3 from them. -/
theorem cursorPrewrapNeverFromReset : Obligations.CursorPrewrapNeverFromReset := by
  constructor
  · intro i s t h
    obtain ⟨-, -, -, haccess⟩ := eachDiagnosticBitExactlyByItsCause i s t h
    exact haccess
  · intro s hs
    have hinv : s.cursor.toNat < s.cfg.capacity ∧ s.diag.getLsbD 3 = false := by
      refine reachable_induction (P := fun s => s.cursor.toNat < s.cfg.capacity ∧ s.diag.getLsbD 3 = false) ?_ ?_ ?_ hs
      · exact fun cfg _ => ⟨cfg.capacity_pos, by simp⟩
      · exact fun _ h => h
      · rintro i s t h ⟨hlt, -⟩
        exact ⟨exec_cursor_lt h hlt, exec_diag_getLsbD_three_of_lt h hlt⟩
    exact hinv.2

end Sys2Proof.Settled
end

section
/-! Events without an address byte among them, from a state outside AddressReceived: what one of them and a run of them leaves, sends
and reports (70_reset_and_hazards.md R145, R147). -/

namespace Sys2Proof.Machine

open Sys2Proof.Safety

variable {i : Instr} {e : EventWord} {es : List EventWord} {s t : State} {r : RunResult}

/-! ## One event that is no address byte -/

/-- The byte a step hands over is the byte its event transmits (R149). -/
theorem exec_sent (h : exec i s = .next t) : t.sent = transmitted i s := by
  obtain ⟨hvalid, hdata⟩ := exec_tx h
  cases htx : transmitted i s <;> simp [State.sent, hvalid, hdata, htx]

@[simp] theorem rdFetch_cursor (s : State) : (rdFetch s).cursor = advance s.cfg s.accessIndex := rfl

/-- AM_W awaits an address byte; cursor and store stay, no byte is sent and no anomaly reported (R88). -/
theorem exec_amW (a : BusAddr) (s : State) :
    ∃ t, exec (.amW a) s = .next t ∧ t.phase = .awaitingAddressByte ∧ t.cursor = s.cursor ∧ t.mem = s.mem ∧ t.sent = none ∧
      t.diag = 0b0000#4 :=
  ⟨_, rfl, rfl, rfl, rfl, rfl, rfl⟩

/-- Outside AddressReceived an event other than an address byte stores nothing and does not enter AddressReceived, and only an open
read moves the cursor. -/
theorem exec_of_not_addressByte (h : exec i s = .next t) (hp : s.phase ≠ .addressReceived)
    (hi : s.phase = .awaitingAddressByte → ∀ b, i ≠ .wr b) :
    t.phase ≠ .addressReceived ∧ t.mem = s.mem ∧ (i ≠ .rd true → t.cursor = s.cursor) := by
  obtain ⟨-, rfl⟩ | ⟨_, -, rfl⟩ | ⟨_, -, rfl⟩ | ⟨_, -, -, rfl⟩ | ⟨b, rfl, hwait, -⟩ | ⟨_, -, hrec, -⟩ | ⟨-, rfl⟩ | ⟨rfl, rfl⟩ :=
    exec_cases h
  · exact ⟨hp, rfl, fun _ => rfl⟩
  · exact ⟨nofun, rfl, fun _ => rfl⟩
  · exact ⟨hp, rfl, fun _ => rfl⟩
  · exact ⟨hp, rfl, fun _ => rfl⟩
  · exact absurd rfl (hi hwait b)
  · exact absurd hrec hp
  · exact ⟨hp, rfl, fun _ => rfl⟩
  · exact ⟨hp, rfl, fun h => absurd rfl h⟩

/-- The anomalies of an event while no address byte has come and the cursor is in range: READ_NOT_ADDRESSED for an RD,
DATA_WHILE_IDLE for a WR. -/
def unaddressedDiag : Instr → Diag
  | .rd _ => 0b0100#4
  | .wr _ => 0b0010#4
  | _ => 0b0000#4

theorem reported_of_not_addressByte (hp : s.phase ≠ .addressReceived) (hc : s.cursor.toNat < s.cfg.capacity)
    (hi : s.phase = .awaitingAddressByte → ∀ b, i ≠ .wr b) : reported i s = unaddressedDiag i := by
  have hread : readDiag s = 0b0100#4 := by rw [readDiag_eq, if_neg hp]
  have haccess : accessDiag s = 0b0000#4 := by rw [accessDiag_eq, if_neg (by omega)]
  cases i with
  | nop => rfl
  | amW a => rfl
  | amR a => rfl
  | wr b =>
    cases hphase : s.phase with
    | idle => simp [reported, hphase, unaddressedDiag, diagDataWhileIdle]
    | awaitingAddressByte => exact absurd rfl (hi hphase b)
    | addressReceived => exact absurd hphase hp
  | rd k =>
    cases k with
    | false => exact hread
    | true => simp [reported, hread, haccess, unaddressedDiag]

/-! ## A run without an address byte -/

/-- The state is outside AddressReceived with its cursor in range, and none of the events delivered from it is an address byte: no WR
comes while an address byte is awaited, and none after an AM_W. -/
structure Unaddressed (s : State) (es : List EventWord) : Prop where
  phase_ne : s.phase ≠ .addressReceived
  cursor_lt : s.cursor.toNat < s.cfg.capacity
  not_wr : s.phase = .awaitingAddressByte → ∀ e ∈ es, ∀ b, decode e ≠ .wr b
  not_wr_after_amW : es.Pairwise fun e f => (∃ a, decode e = .amW a) → ∀ b, decode f ≠ .wr b

namespace Unaddressed

theorem head_not_addressByte (h : Unaddressed s (e :: es)) : s.phase = .awaitingAddressByte → ∀ b, decode e ≠ .wr b :=
  fun hwait => h.not_wr hwait e List.mem_cons_self

/-- The rest of the events is delivered from a state of the same kind: an address byte comes to be awaited only by an AM_W. -/
theorem tail (h : Unaddressed s (e :: es)) (ht : exec (decode e) s = .next t) : Unaddressed t es := by
  obtain ⟨hp, -, -⟩ := exec_of_not_addressByte ht h.phase_ne h.head_not_addressByte
  obtain ⟨hhead, htail⟩ := List.pairwise_cons.mp h.not_wr_after_amW
  refine ⟨hp, exec_cursor_lt ht h.cursor_lt, fun hwait => ?_, htail⟩
  by_cases hs : s.phase = .awaitingAddressByte
  · exact fun f hf => h.not_wr hs f (List.mem_cons_of_mem e hf)
  · have hentered : phaseAfter (decode e) s.phase ≠ s.phase := by
      rw [← exec_phase ht, hwait]; exact Ne.symm hs
    obtain ⟨a, ha, -⟩ | ⟨_, _, hs', -⟩ := phaseAfter_of_ne hentered
    · exact fun f hf => hhead f hf ⟨a, ha⟩
    · exact absurd hs' hs

/-- An open read moves the cursor by one modulo CAPACITY, every other event leaves it. -/
theorem exec_cursor (h : Unaddressed s (e :: es)) (ht : exec (decode e) s = .next t) :
    t.cursor.toNat = (s.cursor.toNat + if isOpenRead e then 1 else 0) % s.cfg.capacity := by
  by_cases he : decode e = .rd true
  · rw [he] at ht
    cases ht
    simpa [isOpenRead, he] using advance_accessIndex_toNat_of_lt h.cursor_lt
  · obtain ⟨-, -, hcursor⟩ := exec_of_not_addressByte ht h.phase_ne h.head_not_addressByte
    simp [isOpenRead, he, hcursor he, Nat.mod_eq_of_lt h.cursor_lt]

/-- An open read sends the byte at the cursor, every other event none. -/
theorem exec_sent_map_some (h : Unaddressed s (e :: es)) (ht : exec (decode e) s = .next t) :
    t.sent.toList.map some = if isOpenRead e then [s.byteAt s.cursor.toNat] else [] := by
  rw [exec_sent ht]
  by_cases he : decode e = .rd true
  · rw [← State.accessIndex_of_lt h.cursor_lt, State.byteAt_accessIndex]
    simp [isOpenRead, he, transmitted]
  · have hnone : transmitted (decode e) s = none := by simpa using mt transmitted_isSome_iff.mp he
    simp [isOpenRead, he, hnone]

/-- The run stores nothing. -/
theorem runEvents_mem (h : Unaddressed s es) (hr : runEvents es s = .next r) : r.final.mem = s.mem := by
  induction es generalizing s r with
  | nil => cases hr; rfl
  | cons e es ih =>
    obtain ⟨t, r', ht, hr', rfl⟩ := runEvents_cons_inv hr
    obtain ⟨-, hmem, -⟩ := exec_of_not_addressByte ht h.phase_ne h.head_not_addressByte
    exact (ih (h.tail ht) hr').trans hmem

/-- The run does not enter AddressReceived. -/
theorem runEvents_phase_ne (h : Unaddressed s es) (hr : runEvents es s = .next r) : r.final.phase ≠ .addressReceived := by
  induction es generalizing s r with
  | nil => cases hr; exact h.phase_ne
  | cons e es ih =>
    obtain ⟨t, r', ht, hr', rfl⟩ := runEvents_cons_inv hr
    exact ih (r := r') (h.tail ht) hr'

/-- The run reports READ_NOT_ADDRESSED for every RD, DATA_WHILE_IDLE for every WR, and nothing else. -/
theorem runEvents_diags (h : Unaddressed s es) (hr : runEvents es s = .next r) :
    r.diags = es.map fun e => unaddressedDiag (decode e) := by
  induction es generalizing s r with
  | nil => cases hr; rfl
  | cons e es ih =>
    obtain ⟨t, r', ht, hr', rfl⟩ := runEvents_cons_inv hr
    rw [List.map_cons, ih (h.tail ht) hr', exec_diag ht,
      reported_of_not_addressByte h.phase_ne h.cursor_lt h.head_not_addressByte]

/-- The run moves the cursor by one modulo CAPACITY for every open read. -/
theorem runEvents_cursor (h : Unaddressed s es) (hr : runEvents es s = .next r) :
    r.final.cursor.toNat = (s.cursor.toNat + es.countP isOpenRead) % s.cfg.capacity := by
  induction es generalizing s r with
  | nil => cases hr; exact (Nat.mod_eq_of_lt h.cursor_lt).symm
  | cons e es ih =>
    obtain ⟨t, r', ht, hr', rfl⟩ := runEvents_cons_inv hr
    rw [ih (h.tail ht) hr', exec_cfg ht, h.exec_cursor ht, Nat.mod_add_mod, List.countP_cons, Nat.add_assoc,
      Nat.add_comm (List.countP isOpenRead es)]

/-- The open reads of the run send the bytes from the cursor on, modulo CAPACITY. -/
theorem runEvents_sent (h : Unaddressed s es) (hr : runEvents es s = .next r) :
    r.sent.map some =
      (List.range (es.countP isOpenRead)).map fun i => s.byteAt ((s.cursor.toNat + i) % s.cfg.capacity) := by
  induction es generalizing s r with
  | nil => cases hr; rfl
  | cons e es ih =>
    obtain ⟨t, r', ht, hr', rfl⟩ := runEvents_cons_inv hr
    obtain ⟨-, hmem, -⟩ := exec_of_not_addressByte ht h.phase_ne h.head_not_addressByte
    have hbyte : ∀ j, t.byteAt j = s.byteAt j := State.byteAt_congr (exec_cfg ht) hmem
    rw [List.map_append, h.exec_sent_map_some ht, ih (h.tail ht) hr', h.exec_cursor ht, exec_cfg ht]
    cases he : isOpenRead e with
    | false => simp [he, hbyte]
    | true =>
      simp [he, hbyte, List.range_succ_eq_map, Function.comp_def, Nat.mod_eq_of_lt h.cursor_lt, Nat.add_assoc, Nat.add_comm 1]

end Unaddressed

/-- From an awaited address byte on, no run without a WR holds an address byte. -/
theorem unaddressed_of_not_wr (hp : s.phase = .awaitingAddressByte) (hc : s.cursor.toNat < s.cfg.capacity)
    (hes : ∀ e ∈ es, ∀ b, decode e ≠ .wr b) : Unaddressed s es :=
  ⟨by simp [hp], hc, fun _ => hes, List.pairwise_of_forall_mem_list fun _ _ f hf _ => hes f hf⟩

end Sys2Proof.Machine
end

section
/-! The obligations of 70_reset_and_hazards.md. -/

namespace Sys2Proof.Settled

open Sys2Proof.Machine Sys2Proof.Safety

/-- Settles O43: after the AM_W the run holds no WR, so no address byte, and stays where an address byte is awaited. -/
theorem readWithoutAddressUsesTheOldCursor : Obligations.ReadWithoutAddressUsesTheOldCursor := by
  intro s a b n c hc
  obtain ⟨t, ht, hwait, hcursor, hmem, hsent, hdiag⟩ := exec_amW a s
  have hcfg : t.cfg = s.cfg := exec_cfg ht
  have hbyte : ∀ j, t.byteAt j = s.byteAt j := State.byteAt_congr hcfg hmem
  obtain ⟨r, hr⟩ := runEvents_total (encode (.amR b) :: List.replicate n (encode (.rd true))) t
  have hun : Unaddressed t (encode (.amR b) :: List.replicate n (encode (.rd true))) :=
    unaddressed_of_not_wr hwait (by rwa [hcursor, hcfg]) (by simp [decode_encode])
  have hcount : (encode (.amR b) :: List.replicate n (encode (.rd true))).countP isOpenRead = n := by
    simp [isOpenRead, decode_encode, List.countP_replicate]
  have hphase : r.final.phase = .awaitingAddressByte := by
    cases hp : r.final.phase with
    | idle => exact absurd hp (runEvents_phase_ne_idle hr (by simp [hwait]))
    | awaitingAddressByte => rfl
    | addressReceived => exact absurd hp (hun.runEvents_phase_ne hr)
  refine ⟨_, runEvents_encode_cons ht hr, ?_, ?_, hphase, wrAddress c r.final, exec_wr_awaitingAddressByte c hphase, ?_, rfl⟩
  · simpa [hsent, hcount, hcursor, hcfg, hbyte] using hun.runEvents_sent hr
  · simp [hdiag, hun.runEvents_diags hr, decode_encode, unaddressedDiag]
  · rw [← hcfg, ← runEvents_cfg hr]
    exact wrap_toNat_eq_indexOf r.final.cfg c

/-- Settles O44: a run from reset, where the cursor is 0 and the store INIT_IMAGE, without an address byte. -/
theorem readBeforeAddressingStartsAtZero : Obligations.ReadBeforeAddressingStartsAtZero := by
  intro cfg inputs es hes
  have hun : Unaddressed (State.resetOf cfg inputs) es := ⟨nofun, cfg.capacity_pos, nofun, hes⟩
  obtain ⟨r, hr⟩ := runEvents_total es (State.resetOf cfg inputs)
  refine ⟨r, hr, ?_, hun.runEvents_diags hr, ?_, fun j => ?_⟩
  · simpa [State.byteAt_resetOf] using hun.runEvents_sent hr
  · simpa using hun.runEvents_cursor hr
  · rw [State.byteAt_congr (runEvents_cfg hr) (hun.runEvents_mem hr), State.byteAt_resetOf]

/-- Settles O2: whatever the word, the edge leaves the reset state of the same configuration. -/
theorem resetWinsAndClearsEverything : Obligations.ResetWinsAndClearsEverything :=
  fun s rest => ⟨State.resetOf s.cfg rest, fun _ => rfl, rfl, rfl, rfl, State.byteAt_resetOf s.cfg rest, rfl, rfl, rfl, rfl⟩

end Sys2Proof.Settled
end

section
/-! The canonical store, and what one event leaves of the store, the latched address and the invariant, each said once; and that no
event reads the latched address. -/

namespace Sys2Proof.Machine

open Sys2Proof.Safety

variable {i : Instr} {s t : State}

/-! ## The canonical form of the store (notes/assumptions/6.md) -/

/-- What a lookup finds is listed. -/
theorem mem_of_lookup_eq_some {m : Memory} {a : Nat} {v : Byte} (h : m.lookup a = some v) : (a, v) ∈ m := by
  obtain ⟨l, l', rfl, -⟩ := List.lookup_eq_some_iff.mp h
  simp

/-- With rising indices, what is listed is what a lookup finds. -/
theorem lookup_eq_some_of_mem {m : Memory} {c : Host.Cell} (hm : m.Pairwise fun c d => c.1 < d.1) (hc : c ∈ m) :
    m.lookup c.1 = some c.2 := by
  obtain ⟨l, l', rfl⟩ := List.append_of_mem hc
  obtain ⟨-, -, hlt⟩ := List.pairwise_append.mp hm
  have hnone : l.lookup c.1 = none := lookup_eq_none_of_forall_ne fun d hd => Nat.ne_of_lt (hlt d hd c List.mem_cons_self)
  rw [lookup_append, hnone, Option.none_or, List.lookup_cons_self]

/-- A canonical store lists exactly the bytes of the store that differ from INIT_IMAGE. -/
theorem Memory.mem_iff_of_wf {cfg : Config} {m : Memory} (hm : Memory.wf cfg m) (c : Host.Cell) :
    c ∈ m ↔ c.1 < cfg.storageLen ∧ Memory.read cfg m c.1 = c.2 ∧ c.2 ≠ initByte cfg c.1 := by
  obtain ⟨hrising, hlisted⟩ := hm
  constructor
  · intro hc
    obtain ⟨hlt, hne⟩ := hlisted c hc
    exact ⟨hlt, by rw [Memory.read, lookup_eq_some_of_mem hrising hc, Option.getD_some], hne⟩
  · rintro ⟨-, hread, hne⟩
    rw [Memory.read] at hread
    cases hl : m.lookup c.1 with
    | none => exact absurd (by simpa [hl] using hread.symm) hne
    | some v =>
      obtain rfl : v = c.2 := by simpa [hl] using hread
      exact mem_of_lookup_eq_some hl

/-- Canonical stores that list the same bytes are equal, since both list them by rising index. -/
theorem Memory.eq_of_mem_iff_of_wf {cfg : Config} {m n : Memory} (hm : Memory.wf cfg m) (hn : Memory.wf cfg n)
    (h : ∀ c, c ∈ m ↔ c ∈ n) : m = n := by
  obtain ⟨hm, -⟩ := hm
  obtain ⟨hn, -⟩ := hn
  have hne {c d : Host.Cell} (hlt : c.1 < d.1) : c ≠ d := fun heq => Nat.ne_of_lt hlt (congrArg Prod.fst heq)
  have hperm : m.Perm n := (List.perm_ext_iff_of_nodup (hm.imp hne) (hn.imp hne)).mpr h
  exact hperm.eq_of_pairwise (fun _ _ _ _ hlt hgt => absurd hgt (Nat.lt_asymm hlt)) hm hn

/-! ## The store after one event -/

/-- Every event leaves the store, or writes a byte at the index of the access (R27). -/
theorem exec_mem_eq_or_write (h : exec i s = .next t) :
    t.mem = s.mem ∨ ∃ v, t.mem = Memory.write s.cfg s.mem s.accessIndex.toNat v := by
  obtain ⟨-, rfl⟩ | ⟨_, -, rfl⟩ | ⟨_, -, rfl⟩ | ⟨_, -, -, rfl⟩ | ⟨_, -, -, rfl⟩ | ⟨b, -, -, rfl⟩ | ⟨-, rfl⟩ | ⟨-, rfl⟩ :=
    exec_cases h
  · exact .inl rfl
  · exact .inl rfl
  · exact .inl rfl
  · exact .inl rfl
  · exact .inl rfl
  · exact .inr ⟨b, rfl⟩
  · exact .inl rfl
  · exact .inl rfl

/-- Every event keeps the canonical form. -/
theorem exec_mem_wf (h : exec i s = .next t) (hs : Memory.wf s.cfg s.mem) : Memory.wf t.cfg t.mem := by
  rw [exec_cfg h]
  obtain heq | ⟨v, heq⟩ := exec_mem_eq_or_write h
  · rwa [heq]
  · rw [heq]
    exact Memory.wf_write hs s.accessIndex_lt_storageLen v

/-- An event stores a byte at an index exactly when it is a data byte and the index is the cursor's (R93). -/
theorem storeOf_lookup_eq_some {j : Nat} {b : Byte} :
    (storeOf i s).lookup j = some b ↔ i = .wr b ∧ s.phase = .addressReceived ∧ j = indexOf s.cfg s.cursor.toNat := by
  by_cases hp : s.phase = .addressReceived
  · cases i with
    | wr v =>
      by_cases hj : j = indexOf s.cfg s.cursor.toNat
      · simp [storeOf_wr_addressReceived v hp, hp, hj]
      · simp [storeOf_wr_addressReceived v hp, hj, List.lookup, beq_eq_false_iff_ne.mpr hj]
    | nop => simp [storeOf]
    | amW a => simp [storeOf]
    | amR a => simp [storeOf]
    | rd k => simp [storeOf]
  · simp [storeOf_of_phase_ne i hp, hp]

/-- A byte of the store that an event changed is the byte it stored. -/
theorem exec_byteAt_of_ne (h : exec i s = .next t) {j : Nat} (hne : t.byteAt j ≠ s.byteAt j) :
    ∃ b, (storeOf i s).lookup j = some b ∧ t.byteAt j = some b := by
  rw [exec_byteAt h] at hne ⊢
  cases hl : (storeOf i s).lookup j with
  | none => simp [hl] at hne
  | some b => exact ⟨b, rfl, rfl⟩

theorem indexOf_lt (cfg : Config) (c : Nat) : indexOf cfg c < cfg.capacity := by
  have := cfg.capacity_pos
  unfold indexOf
  split <;> omega

/-- No event changes a byte at or above CAPACITY (R46). -/
theorem exec_byteAt_of_capacity_le (h : exec i s = .next t) {j : Nat} (hj : s.cfg.capacity ≤ j) : t.byteAt j = s.byteAt j := by
  by_contra hne
  obtain ⟨b, hstore, -⟩ := exec_byteAt_of_ne h hne
  obtain ⟨-, -, rfl⟩ := storeOf_lookup_eq_some.mp hstore
  exact absurd (indexOf_lt s.cfg s.cursor.toNat) (Nat.not_lt.mpr hj)

/-! ## The invariant -/

theorem inv_resetOf (cfg : Config) (inputs : List PortInput) : Inv (State.resetOf cfg inputs) :=
  ⟨cfg.capacity_pos, Memory.wf_nil cfg, fun j _ => State.byteAt_resetOf cfg inputs j⟩

/-- The invariant does not speak of the inputs to come. -/
theorem inv_popInput (h : Inv s) : Inv s.popInput := ⟨h.cursor_lt, h.mem_wf, h.surplus⟩

theorem exec_inv (h : exec i s = .next t) (hs : Inv s) : Inv t := by
  refine ⟨exec_cursor_lt h hs.cursor_lt, exec_mem_wf h hs.mem_wf, fun j hj => ?_⟩
  rw [exec_cfg h] at hj ⊢
  rw [exec_byteAt_of_capacity_le h hj, hs.surplus j hj]

theorem step_inv (h : step s = .next t) (hs : Inv s) : Inv t := by
  obtain ⟨-, rfl⟩ | ⟨-, h⟩ := step_cases h
  · exact inv_resetOf _ _
  · exact exec_inv h (inv_popInput hs)

/-! ## The latched address (R26, R90) -/

/-- No event reads `laddr`: from a state that differs in it alone an event leaves a state that differs in it at most. -/
theorem exec_setLaddr (h : exec i s = .next t) (a : BusAddr) : ∃ a', exec i (s.setLaddr a) = .next (t.setLaddr a') := by
  obtain ⟨rfl, rfl⟩ | ⟨a', rfl, rfl⟩ | ⟨a', rfl, rfl⟩ | ⟨b, rfl, hp, rfl⟩ | ⟨b, rfl, hp, rfl⟩ | ⟨b, rfl, hp, rfl⟩ |
    ⟨rfl, rfl⟩ | ⟨rfl, rfl⟩ := exec_cases h
  · exact ⟨a, rfl⟩
  · exact ⟨a', rfl⟩
  · exact ⟨a', rfl⟩
  · exact ⟨a, exec_wr_idle b hp⟩
  · exact ⟨a, exec_wr_awaitingAddressByte b hp⟩
  · exact ⟨a, exec_wr_addressReceived b hp⟩
  · exact ⟨a, rfl⟩
  · exact ⟨a, rfl⟩

/-- A run from a state that differs in `laddr` alone sends and reports the same, and ends in a state that differs in it at most. -/
theorem runEvents_setLaddr {es : List EventWord} {r : RunResult} (h : runEvents es s = .next r) (a : BusAddr) :
    ∃ a', runEvents es (s.setLaddr a) = .next { r with final := r.final.setLaddr a' } := by
  induction es generalizing s r a with
  | nil => cases h; exact ⟨a, rfl⟩
  | cons e es ih =>
    obtain ⟨t, r', ht, hr, rfl⟩ := runEvents_cons_inv h
    obtain ⟨a', ht'⟩ := exec_setLaddr ht a
    obtain ⟨a'', hr'⟩ := ih hr a'
    exact ⟨a'', runEvents_cons ht' hr'⟩

end Sys2Proof.Machine
end

section
/-! The obligations of the invariant, the store, the cursor and the latched address (10_state.md, 20_memory.md). -/

namespace Sys2Proof.Settled

open Sys2Proof.Machine Sys2Proof.Safety

/-- Settles O29: a reset meets the invariant, and every event keeps each of its three parts. -/
theorem stepKeepsTheInvariant : Obligations.StepKeepsTheInvariant :=
  fun _ _ hs h => step_inv h hs

/-- Settles O28: the cursor is 0, no byte is listed, and the store shows INIT_IMAGE. -/
theorem resetMeetsTheInvariant : Obligations.ResetMeetsTheInvariant :=
  ⟨inv_resetOf, inv_resetOf Config.device []⟩

/-- Settles O31, by induction over the reachable states, which meet the invariant. -/
theorem surplusIndicesKeepTheImage : Obligations.SurplusIndicesKeepTheImage := by
  refine ⟨fun s hs => ?_, State.accessIndex_lt⟩
  have hinv : Inv s := reachable_induction inv_resetOf (fun _ => inv_popInput) (fun _ _ _ => exec_inv) hs
  exact hinv.surplus

/-- Settles O33: a canonical store lists exactly the bytes that differ from INIT_IMAGE, so equal reads list the same cells. -/
theorem equalStoresAreEqualData : Obligations.EqualStoresAreEqualData := by
  intro cfg m n hm hn hread
  refine Memory.eq_of_mem_iff_of_wf hm hn fun c => ?_
  rw [Memory.mem_iff_of_wf hm, Memory.mem_iff_of_wf hn]
  exact and_congr_right fun hlt => by rw [hread c.1 hlt]

/-- Settles O17: the three paths go through the wraparound routine, in plain arithmetic `indexOf`. -/
theorem cursorIsWrittenOnlyByItsThreePaths : Obligations.CursorIsWrittenOnlyByItsThreePaths := by
  intro i s t h
  obtain ⟨rfl, rfl⟩ | ⟨_, rfl, rfl⟩ | ⟨_, rfl, rfl⟩ | ⟨b, rfl, hp, rfl⟩ | ⟨b, rfl, hp, rfl⟩ | ⟨b, rfl, hp, rfl⟩ |
    ⟨rfl, rfl⟩ | ⟨rfl, rfl⟩ := exec_cases h
  · rfl
  · rfl
  · rfl
  · rw [hp]; rfl
  · rw [hp]; exact wrap_toNat_eq_indexOf s.cfg b
  · rw [hp]; exact advance_toNat_eq_indexOf s
  · rfl
  · exact advance_toNat_eq_indexOf s

/-- Settles O18: a changed byte is one the event stored. -/
theorem storeChangesOnlyByDataBytes : Obligations.StoreChangesOnlyByDataBytes := by
  intro i s t h j hne
  obtain ⟨b, hstore, hbyte⟩ := exec_byteAt_of_ne h hne
  obtain ⟨hi, hp, hj⟩ := storeOf_lookup_eq_some.mp hstore
  exact ⟨b, hi, hp, hj, hbyte⟩

/-- Settles O27: the matches alone write `laddr`, and a run from a state with another `laddr` goes the same way. -/
theorem latchedAddressIsNeverRead : Obligations.LatchedAddressIsNeverRead := by
  constructor
  · intro i s t h
    obtain ⟨rfl, rfl⟩ | ⟨_, rfl, rfl⟩ | ⟨_, rfl, rfl⟩ | ⟨_, rfl, -, rfl⟩ | ⟨_, rfl, -, rfl⟩ | ⟨_, rfl, -, rfl⟩ |
      ⟨rfl, rfl⟩ | ⟨rfl, rfl⟩ := exec_cases h <;> rfl
  · intro es s a
    obtain ⟨r, hr⟩ := runEvents_total es s
    obtain ⟨a', hr'⟩ := runEvents_setLaddr hr a
    exact ⟨r, _, hr, hr', rfl, rfl, rfl⟩

end Sys2Proof.Settled
end

section
/-! The event word in plain arithmetic, and the words of a script's lines and transactions. -/

namespace Sys2Proof

/-! ## The event word of 30_encoding.md R76 -/

/-- The value of a word put together from fields (R65). -/
theorem EventWord.ofFields_toNat (k : BitVec 2) (a : Bool) (d : Byte) :
    (EventWord.ofFields k a d).toNat = 512 * k.toNat + 256 * a.toNat + d.toNat := by
  have hd := d.isLt
  have hlow : (BitVec.ofBool a ++ d : BitVec 9).toNat = 256 * a.toNat + d.toNat := by
    rw [BitVec.toNat_append, ← Nat.shiftLeft_add_eq_or_of_lt hd, Nat.shiftLeft_eq, BitVec.toNat_ofBool, Nat.mul_comm]
  have hlt := (BitVec.ofBool a ++ d : BitVec 9).isLt
  rw [EventWord.ofFields, BitVec.toNat_append, ← Nat.shiftLeft_add_eq_or_of_lt hlt, Nat.shiftLeft_eq, hlow]
  omega

/-- The DATA of an address match, as a number: twice the address, plus the direction (R67). -/
theorem busAddr_append_toNat (a : BusAddr) (dir : BitVec 1) : (a ++ dir : BitVec 8).toNat = 2 * a.toNat + dir.toNat := by
  rw [BitVec.toNat_append, ← Nat.shiftLeft_add_eq_or_of_lt dir.isLt, Nat.shiftLeft_eq, Nat.mul_comm]

theorem ofNat_eq_encode_amW (a : BusAddr) : BitVec.ofNat 11 (0x200 + 2 * a.toNat) = encode (.amW a) := by
  apply BitVec.eq_of_toNat_eq
  have := a.isLt
  simp only [encode, EventWord.ofFields_toNat, busAddr_append_toNat, BitVec.toNat_ofNat, Bool.toNat_false]
  omega

theorem ofNat_eq_encode_amR (a : BusAddr) : BitVec.ofNat 11 (0x201 + 2 * a.toNat) = encode (.amR a) := by
  apply BitVec.eq_of_toNat_eq
  have := a.isLt
  simp only [encode, EventWord.ofFields_toNat, busAddr_append_toNat, BitVec.toNat_ofNat, Bool.toNat_false]
  omega

theorem ofNat_eq_encode_wr {b : Nat} (h : b ≤ 0xFF) : BitVec.ofNat 11 (0x400 + b) = encode (.wr (BitVec.ofNat 8 b)) := by
  apply BitVec.eq_of_toNat_eq
  simp only [encode, EventWord.ofFields_toNat, BitVec.toNat_ofNat, Bool.toNat_false]
  omega

/-- What the decoder of the table's words reads is what the port's decoder reads from the word presented. -/
theorem eq_decode_of_decodeTableWord {nbits w : Nat} {i : Instr} (h : decodeTableWord nbits w = some i) :
    i = decode (BitVec.ofNat 11 (w % 2 ^ nbits)) := by
  unfold decodeTableWord decodeNumber at h
  by_cases hw : w % 2 ^ nbits < 2048 <;> simp_all

end Sys2Proof

namespace Sys2Proof.Machine

variable {cfg : Config}

/-! ## The words of a line (R76, R80 to R83) -/

theorem addressMatchWords_of_le {a7 : Option Nat} (dir : Nat) (h : a7.getD cfg.slaveAddr.toNat ≤ 0x7F) :
    addressMatchWords cfg dir a7 = .ok [BitVec.ofNat 11 (0x200 + dir + 2 * a7.getD cfg.slaveAddr.toNat)] :=
  if_pos (decide_eq_true (Nat.lt_succ_of_le h))

theorem addressMatchWords_of_lt {a7 : Option Nat} (dir : Nat) (h : 0x7F < a7.getD cfg.slaveAddr.toNat) :
    addressMatchWords cfg dir a7 = .error .operandOutOfRange :=
  if_neg (mt of_decide_eq_true (Nat.not_lt_of_ge h))

/-- SLAVE_ADDR is always in range. -/
theorem addressMatchWords_none (cfg : Config) (dir : Nat) :
    addressMatchWords cfg dir none = .ok [BitVec.ofNat 11 (0x200 + dir + 2 * cfg.slaveAddr.toNat)] :=
  addressMatchWords_of_le (a7 := none) dir (Nat.le_of_lt_succ cfg.slaveAddr.isLt)

theorem writeWords_of_le {bytes : List Nat} (h : ∀ b ∈ bytes, b ≤ 0xFF) :
    writeWords bytes = .ok (bytes.map fun b => BitVec.ofNat 11 (0x400 + b)) :=
  if_pos (List.all_eq_true.mpr fun b hb => decide_eq_true (Nat.lt_succ_of_le (h b hb)))

theorem writeWords_of_lt {b : Nat} (h : 0xFF < b) : writeWords [b] = .error .operandOutOfRange :=
  if_neg fun hall => Nat.not_lt_of_ge h (of_decide_eq_true (List.all_eq_true.mp hall b List.mem_cons_self))

/-- The words of a write transaction, event by event. -/
theorem writeTransaction_of_le (cfg : Config) {bytes : List Nat} (h : ∀ b ∈ bytes, b ≤ 0xFF) :
    writeTransaction cfg bytes =
      .ok (encode (.amW cfg.slaveAddr) :: bytes.map fun b => encode (.wr (BitVec.ofNat 8 b))) := by
  have hbytes : (bytes.map fun b => BitVec.ofNat 11 (0x400 + b)) = bytes.map fun b => encode (.wr (BitVec.ofNat 8 b)) :=
    List.map_congr_left fun b hb => ofNat_eq_encode_wr (h b hb)
  rw [writeTransaction, addressMatchWords_none, writeWords_of_le h, hbytes, ← ofNat_eq_encode_amW]
  rfl

theorem writeTransaction_of_lt (cfg : Config) {b : Nat} (h : 0xFF < b) :
    writeTransaction cfg [b] = .error .operandOutOfRange := by
  rw [writeTransaction, addressMatchWords_none, writeWords_of_lt h]

/-- The words of a read transaction, event by event. -/
theorem readTransaction_of_ne (cfg : Config) {n : Nat} (h : n ≠ 0) :
    readTransaction cfg n = .ok (encode (.amR cfg.slaveAddr) :: List.replicate n (encode (.rd true))) := by
  have hrd : encode (.rd true) = 0x700#11 := rfl
  rw [readTransaction, if_neg h, addressMatchWords_none, ← ofNat_eq_encode_amR, hrd]
  rfl

/-- The words of a block write and of a block read at the same register, event by event (R81, R82). -/
theorem assemble_block (cfg : Config) {reg : Nat} {bs : List Nat} (hreg : reg ≤ 0xFF) (hne : bs ≠ [])
    (hbs : ∀ b ∈ bs, b ≤ 0xFF) :
    assemble cfg [.write reg bs, .read reg bs.length] =
      .ok (([encode (.amW cfg.slaveAddr), encode (.wr (BitVec.ofNat 8 reg))] ++
          (bs.map (BitVec.ofNat 8)).map fun b => encode (.wr b)) ++
        ([encode (.amW cfg.slaveAddr), encode (.wr (BitVec.ofNat 8 reg))] ++
          encode (.amR cfg.slaveAddr) :: List.replicate bs.length (encode (.rd true)))) := by
  have hwrite : (ScriptLine.write reg bs).words cfg = writeTransaction cfg (reg :: bs) := by
    cases bs with
    | nil => exact absurd rfl hne
    | cons b bs => rfl
  have hreg' : ∀ b ∈ [reg], b ≤ 0xFF := by simpa using hreg
  have hread : (ScriptLine.read reg bs.length).words cfg =
      joinWords (writeTransaction cfg [reg]) (readTransaction cfg bs.length) := rfl
  rw [assemble, assemble, assemble, hwrite, hread, writeTransaction_of_le cfg (List.forall_mem_cons.mpr ⟨hreg, hbs⟩),
    writeTransaction_of_le cfg hreg', readTransaction_of_ne cfg (by simpa using hne)]
  simp [joinWords, Function.comp_def]

end Sys2Proof.Machine
end

section
/-! What a clock edge does with the nearest input, and that delivering words one by one is running the machine behind the host's
interface with all of them presented. -/

namespace Sys2Proof.Machine

variable {i : Instr} {e : EventWord} {es : List EventWord} {s t : State} {r : RunResult}

/-! ## One clock edge -/

/-- With a reset presented, a clock edge takes that input and resets (R135). -/
theorem step_of_reset {rest : List PortInput} (h : s.inputs = ⟨true, e⟩ :: rest) :
    step s = .next (State.resetOf s.cfg rest) := by
  simp [step, State.input, h, takeReset]

/-- With an event word presented, a clock edge takes that input and performs the word's event (R85). -/
theorem step_of_event {rest : List PortInput} (h : s.inputs = ⟨false, e⟩ :: rest) :
    step s = exec (decode e) { s with inputs := rest } := by
  simp [step, State.input, State.popInput, h]

/-! ## One event and the inputs of the coming edges -/

/-- No event writes the inputs of the coming edges. -/
theorem exec_inputs (h : exec i s = .next t) : t.inputs = s.inputs := by
  obtain ⟨-, rfl⟩ | ⟨_, -, rfl⟩ | ⟨_, -, rfl⟩ | ⟨_, -, -, rfl⟩ | ⟨_, -, -, rfl⟩ | ⟨_, -, -, rfl⟩ | ⟨-, rfl⟩ | ⟨-, rfl⟩ :=
    exec_cases h <;> rfl

/-- No event reads them. -/
theorem exec_setInputs (h : exec i s = .next t) (l : List PortInput) :
    exec i { s with inputs := l } = .next { t with inputs := l } := by
  obtain ⟨rfl, rfl⟩ | ⟨_, rfl, rfl⟩ | ⟨_, rfl, rfl⟩ | ⟨b, rfl, hp, rfl⟩ | ⟨b, rfl, hp, rfl⟩ | ⟨b, rfl, hp, rfl⟩ |
    ⟨rfl, rfl⟩ | ⟨rfl, rfl⟩ := exec_cases h
  · rfl
  · rfl
  · rfl
  · exact exec_wr_idle b hp
  · exact exec_wr_awaitingAddressByte b hp
  · exact exec_wr_addressReceived b hp
  · rfl
  · rfl

/-! ## Runs of events and the machine -/

/-- Event words as the inputs of the coming edges, ahead of whatever comes later. -/
def State.presentAll (s : State) (es : List EventWord) : State :=
  { s with inputs := (es.map fun e => (⟨false, e⟩ : PortInput)) ++ s.inputs }

/-- The first of the words presented is performed, and the others stay presented. -/
theorem step_presentAll_cons (h : exec (decode e) s = .next t) (es : List EventWord) :
    step (s.presentAll (e :: es)) = .next (t.presentAll es) := by
  rw [State.presentAll, State.presentAll, exec_inputs h]
  exact exec_setInputs h (s.presentAll es).inputs

/-- A machine's run goes on from the state its first step leaves. -/
theorem core_run_succ {M : Host.Core} {s t : M.State} (h : M.step s = .next t) (n : Nat) : M.run (n + 1) s = M.run n t := by
  simp only [Host.Core.run, h]

/-- Delivering words one by one is running the machine with all of them presented. -/
theorem core_run_presentAll (h : runEvents es s = .next r) :
    Sys2Proof.core.run es.length (s.presentAll es) = .next r.final := by
  induction es generalizing s r with
  | nil => cases h; rfl
  | cons e es ih =>
    obtain ⟨t, r', ht, hr, rfl⟩ := runEvents_cons_inv h
    have hstep : Sys2Proof.core.step (s.presentAll (e :: es)) = .next (t.presentAll es) := step_presentAll_cons ht es
    exact (core_run_succ hstep es.length).trans (ih (r := r') hr)

/-- A run leaves the inputs of the coming edges as they were. -/
theorem runEvents_inputs (h : runEvents es s = .next r) :
    r.final.inputs = s.inputs := by
  induction es generalizing s r with
  | nil => cases h; rfl
  | cons e es ih =>
    obtain ⟨t, r', ht, hr, rfl⟩ := runEvents_cons_inv h
    exact (ih hr).trans (exec_inputs ht)

end Sys2Proof.Machine
end

section
/-! Block transactions: what a run of events without an open read sends, what a block write leaves in the store, and what a block read
sends (30_encoding.md R81, R82). -/

namespace Sys2Proof.Machine

open Sys2Proof.Safety

variable {es : List EventWord} {s : State} {r : RunResult}

/-- Only open reads send bytes. -/
theorem runEvents_sent_eq_nil (h : runEvents es s = .next r) (hes : ∀ e ∈ es, decode e ≠ .rd true) : r.sent = [] := by
  induction es generalizing s r with
  | nil => cases h; rfl
  | cons e es ih =>
    obtain ⟨t, r', ht, hr, rfl⟩ := runEvents_cons_inv h
    obtain ⟨he, hes⟩ := List.forall_mem_cons.mp hes
    have hnone : transmitted (decode e) s = none := by simpa using mt transmitted_isSome_iff.mp he
    simp [exec_sent ht, hnone, ih hr hes]

/-- The only byte below 1. -/
theorem eq_zero_of_toNat_lt_one {c : Byte} (h : c.toNat < 1) : c = 0x00#8 :=
  BitVec.eq_of_toNat_eq (Nat.lt_one_iff.mp h)

/-- An open read sends the byte at the index of the cursor (R96). -/
theorem runEvents_openRead (s : State) :
    ∃ r, runEvents [encode (.rd true)] s = .next r ∧ r.sent.map some = [s.byteAt (indexOf s.cfg s.cursor.toNat)] := by
  refine ⟨_, runEvents_encode_cons rfl (runEvents_nil _), ?_⟩
  rw [← accessIndex_toNat_eq_indexOf, State.byteAt_accessIndex]
  rfl

/-- A block write sends nothing and leaves its bytes, CAPACITY of them at most, at the indices from its register on, modulo
CAPACITY. -/
theorem runEvents_writeBlock (s : State) (a : BusAddr) {c : Byte} (bytes : List Byte) (hc : c.toNat < s.cfg.capacity)
    (hlen : bytes.length ≤ s.cfg.capacity) :
    ∃ r, runEvents ([encode (.amW a), encode (.wr c)] ++ bytes.map fun b => encode (.wr b)) s = .next r ∧ r.sent = [] ∧
      r.final.cfg = s.cfg ∧
      ∀ i b, bytes[i]? = some b → r.final.byteAt ((c.toNat + i) % s.cfg.capacity) = some b := by
  obtain ⟨r1, hr1, hsent1, hcfg1, -, hp1, hc1⟩ := runEvents_setCursor s a c
  rw [indexOf_of_lt hc] at hc1
  have hbytes : ((bytes.map fun b => encode (.wr b)).filterMap fun e => writtenByte (decode e)) = bytes := by
    simp [List.filterMap_map, decode_encode, writtenByte]
  obtain ⟨r2, hr2, -, -, hstores⟩ := runEvents_of_writes (es := bytes.map fun b => encode (.wr b)) hp1
    (by rwa [hc1, hcfg1]) (by simp [decode_encode, writtenByte])
  rw [hbytes, hc1, hcfg1] at hstores
  have hsent2 : r2.sent = [] := runEvents_sent_eq_nil hr2 (by simp [decode_encode])
  refine ⟨_, runEvents_append hr1 hr2, by simp [hsent1, hsent2], (runEvents_cfg hr2).trans hcfg1, fun i b hb => ?_⟩
  rw [runEvents_byteAt hr2, hstores, lookup_reverse_cyclicStores hb (by omega), Option.some_or]

/-- A block read sends the bytes at the indices from its register on, modulo CAPACITY. -/
theorem runEvents_readBlock (s : State) (a : BusAddr) {c : Byte} (n : Nat) (hc : c.toNat < s.cfg.capacity) :
    ∃ r, runEvents ([encode (.amW a), encode (.wr c)] ++ encode (.amR a) :: List.replicate n (encode (.rd true))) s = .next r ∧
      r.sent.map some = (List.range n).map fun i => s.byteAt ((c.toNat + i) % s.cfg.capacity) := by
  obtain ⟨r1, hr1, hsent1, hcfg1, hmem1, -, hc1⟩ := runEvents_setCursor s a c
  rw [indexOf_of_lt hc] at hc1
  have hbyte : ∀ j, r1.final.byteAt j = s.byteAt j := State.byteAt_congr hcfg1 hmem1
  obtain ⟨r2, hr2, -, hsent2⟩ := runEvents_of_openReads
    (es := encode (.amR a) :: List.replicate n (encode (.rd true))) (by rwa [hc1, hcfg1])
    (by simp [decode_encode, leavesCursor])
  refine ⟨_, runEvents_append hr1 hr2, ?_⟩
  simpa [hsent1, decode_encode, hbyte, hc1, hcfg1] using hsent2

/-- What a read of a block's length sends is the block, where the block stands at the indices read. -/
theorem map_range_eq_of_byteAt {bytes : List Byte} {f : Nat → Option Byte} (h : ∀ i b, bytes[i]? = some b → f i = some b) :
    (List.range bytes.length).map f = bytes.map some := by
  apply List.ext_getElem
  · simp
  · intro i hi _
    have hlt : i < bytes.length := by simpa using hi
    simpa using h i bytes[i] (List.getElem?_eq_getElem hlt)

end Sys2Proof.Machine
end

section
/-! The obligations of the event word, the step, the configuration and scripts, and of runs that write and read (00_scope.md,
10_state.md section 2, 30_encoding.md, 40_slave_events.md). -/

namespace Sys2Proof.Settled

open Sys2Proof.Machine Sys2Proof.Safety

/-- Settles O34: the canonical word of an event is an event word, so the table's decoder reads it as the port's does. -/
theorem decodeOfEncodeIsTheEvent : Obligations.DecodeOfEncodeIsTheEvent := by
  intro i
  refine ⟨by cases i <;> rfl, decode_encode i, ?_⟩
  rw [decodeTableWord_of_lt (encode i).isLt, BitVec.ofNat_toNat, BitVec.setWidth_eq, decode_encode]

/-- Settles O42: the data byte moves the cursor to the next index, and the store there is as it was unless the index is the same. -/
theorem readAfterDataByteReadsTheNextIndex : Obligations.ReadAfterDataByteReadsTheNextIndex := by
  intro s v hp
  obtain ⟨r, hr, hsent⟩ := runEvents_openRead (wrData v s)
  have hcfg : (wrData v s).cfg = s.cfg := rfl
  have hcursor : (wrData v s).cursor.toNat = indexOf s.cfg (indexOf s.cfg s.cursor.toNat + 1) := advance_toNat_eq_indexOf s
  rw [hcfg, hcursor, indexOf_of_lt (indexOf_lt _ _), wrData_byteAt] at hsent
  exact ⟨_, runEvents_encode_cons (exec_wr_addressReceived v hp) hr, hsent⟩

/-- Settles O47: at CAPACITY 256 no byte is out of range, and at CAPACITY 1 index 0 is the only one in it. -/
theorem writeCornersOfTheCapacityRange : Obligations.WriteCornersOfTheCapacityRange := by
  intro s b
  have hb := b.isLt
  refine ⟨fun hcap hp => ?_, fun hcap hp hc => ?_, fun hcap hp => ?_, fun hcap hp => ?_⟩
  · refine ⟨_, exec_wr_awaitingAddressByte b hp, ?_, ?_⟩
    · exact (wrap_zext9 s.cfg b).trans (if_neg (by omega))
    · exact (addressDiag_eq s.cfg b).trans (if_neg (by omega))
  · have hcur : s.cursor.toNat = 255 := by rw [hc]; rfl
    have hindex : indexOf s.cfg s.cursor.toNat = 255 := by rw [indexOf_of_lt (by omega), hcur]
    refine ⟨_, exec_wr_addressReceived b hp, ?_, ?_, ?_⟩
    · exact advance_accessIndex_of_succ_eq (by omega)
    · rw [wrData_byteAt, hindex, if_pos rfl]
    · exact (accessDiag_eq s).trans (if_neg (by omega))
  · refine ⟨_, exec_wr_awaitingAddressByte b hp, ?_, ?_⟩
    · exact eq_zero_of_toNat_lt_one (hcap ▸ wrap_lt s.cfg (zext9 b))
    · have hdiag : (wrAddress b s).diag = if s.cfg.capacity ≤ b.toNat then 0b0001#4 else 0b0000#4 := addressDiag_eq s.cfg b
      have hclamped : s.cfg.capacity ≤ b.toNat ↔ b ≠ 0x00#8 := by
        rw [hcap, Nat.one_le_iff_ne_zero, ← BitVec.toNat_ne_iff_ne]
        rfl
      rw [hdiag, ← hclamped]
      by_cases h : s.cfg.capacity ≤ b.toNat <;> simp [h]
  · have hindex : indexOf s.cfg s.cursor.toNat = 0 := by
      have := indexOf_lt s.cfg s.cursor.toNat
      omega
    refine ⟨_, exec_wr_addressReceived b hp, ?_, ?_⟩
    · exact eq_zero_of_toNat_lt_one (hcap ▸ advance_lt s.cfg s.accessIndex)
    · rw [wrData_byteAt, hindex, if_pos rfl]

/-- Settles O48: each word delivered is a step of the machine with the later words presented. -/
theorem scriptRunIsTheMachinesRun : Obligations.ScriptRunIsTheMachinesRun := by
  intro es s
  obtain ⟨r, hr⟩ := runEvents_total es s
  exact ⟨r, hr, runEvents_inputs hr, core_run_presentAll hr⟩

/-- Settles O52: the block stands where it was written, since no two of its bytes share an index, and is read from there. -/
theorem blockReadReturnsTheBlockWritten : Obligations.BlockReadReturnsTheBlockWritten := by
  intro s reg bs hreg hne hlen hbs
  have hle := s.cfg.capacity_le
  have hc : (BitVec.ofNat 8 reg).toNat < s.cfg.capacity := by rwa [BitVec.toNat_ofNat, Nat.mod_eq_of_lt (by omega)]
  obtain ⟨r1, hr1, hsent1, hcfg1, hbyte⟩ :=
    runEvents_writeBlock s s.cfg.slaveAddr (bs.map (BitVec.ofNat 8)) hc (by rwa [List.length_map])
  rw [← hcfg1] at hc
  obtain ⟨r2, hr2, hsent2⟩ := runEvents_readBlock r1.final s.cfg.slaveAddr bs.length hc
  refine ⟨_, assemble_block s.cfg (by omega) hne hbs, _, runEvents_append hr1 hr2, ?_⟩
  rw [hcfg1, ← List.length_map (BitVec.ofNat 8), map_range_eq_of_byteAt hbyte] at hsent2
  rw [hsent1, List.nil_append]
  exact List.map_injective_iff.mpr (Option.some_injective _) hsent2

/-- Settles O3: the reset takes the nearest input alone. -/
theorem resetKeepsTheLaterInputs : Obligations.ResetKeepsTheLaterInputs :=
  fun _ _ _ h => ⟨_, step_of_reset h, rfl, rfl⟩

/-- Settles O4: the edge takes the nearest input and performs its event. -/
theorem stepPerformsTheDecodedEvent : Obligations.StepPerformsTheDecodedEvent :=
  fun _ _ _ h => step_of_event h

/-- Settles O5: an exhausted list presents the word 0x000, and there is no input to take. -/
theorem stepWithNoInputIsNop : Obligations.StepWithNoInputIsNop := by
  intro s h
  have hpop : s.popInput = s := by rw [State.popInput, h, List.tail_nil, ← h]
  have hstep : step s = exec (decode 0x000#11) s.popInput := by simp [step, State.input, h]
  rw [hstep, hpop]
  rfl

/-- Settles O6: the word placed is the nearest input, and its event is the one the table's decoder reads. -/
theorem placedWordIsPerformedNext : Obligations.PlacedWordIsPerformedNext := by
  intro s w i h
  rw [eq_decode_of_decodeTableWord h]
  exact step_of_event rfl

/-- Settles O8: NOP drives the quiet outputs, which keep `tx_data`. -/
theorem nopClearsOutputsOnly : Obligations.NopClearsOutputsOnly := fun _ => rfl

/-- Settles O22: by the codes of the three phases and the four codes. -/
theorem phaseCodes : Obligations.PhaseCodes :=
  ⟨rfl, rfl, rfl, fun p => by cases p <;> rfl, by decide⟩

/-- Settles O37: by evaluation of decode on each word. -/
theorem decodedWordsOfTheSpec : Obligations.DecodedWordsOfTheSpec := by
  unfold Obligations.DecodedWordsOfTheSpec
  decide

/-- Settles O49: `Config.build` checks the three conditions in turn. -/
theorem illegalConfigurationIsRefused : Obligations.IllegalConfigurationIsRefused := by
  intro capacity storageLen image addr
  constructor
  · rintro ⟨hpos, hle, hs, hi⟩
    refine ⟨⟨capacity, storageLen, image, addr, hpos, hle, hs, hi⟩, ?_, rfl, rfl, rfl, rfl⟩
    simp [Config.build, hpos, hle, hs, hi]
  · intro h
    by_cases hc : 1 ≤ capacity ∧ capacity ≤ 256
    · by_cases hs : capacity ≤ storageLen
      · have hi : image.length ≠ storageLen := fun hi => h ⟨hc.1, hc.2, hs, hi⟩
        exact ⟨.imageLength, by simp [Config.build, hc, hs, hi]⟩
      · exact ⟨.storageBelowCapacity, by simp [Config.build, hc, hs]⟩
    · exact ⟨.capacityOutOfRange, dif_neg hc⟩

/-- Settles O50: each operand's range is the one its word is made for. -/
theorem scriptLinesStandForTheirWords : Obligations.ScriptLinesStandForTheirWords := by
  intro cfg n
  refine ⟨rfl, addressMatchWords_none cfg 0, addressMatchWords_none cfg 1, ?_, ?_, ?_, ?_, ?_, ?_, rfl, rfl⟩
  · exact fun h => addressMatchWords_of_le (a7 := some n) 0 h
  · exact fun h => addressMatchWords_of_le (a7 := some n) 1 h
  · exact fun h => addressMatchWords_of_lt (a7 := some n) 0 h
  · exact fun h => addressMatchWords_of_lt (a7 := some n) 1 h
  · exact fun h => writeWords_of_le (by simpa using h)
  · exact writeWords_of_lt

/-- Settles O53: a read of no bytes is refused, unless its register already was. -/
theorem emptyTransactionsAreRefused : Obligations.EmptyTransactionsAreRefused := by
  intro cfg r
  refine ⟨rfl, rfl, ?_⟩
  split
  next h => simp [ScriptLine.words, writeTransaction_of_le cfg (bytes := [r]) (by simpa using h), readTransaction, joinWords]
  next h => simp [ScriptLine.words, writeTransaction_of_lt cfg (Nat.not_le.mp h), joinWords]

end Sys2Proof.Settled
end
